-- ==== Sys2Proof/Word.lean ====
section
/-! DEFINITION. The word types of the FEC CORE. Registers and command words are numbers (spec 00_scope.md R13); the bit
vectors `BV(n)` of R11 are `BitVec n` with index 0 at the most significant end, which is R12's `hex12` and `hex24`. -/

namespace Sys2Proof

/-- A register or a command word: 32 bits (10_state.md R22). -/
abbrev Word := BitVec 32

/-- A buffer byte (20_memory.md R50). -/
abbrev Byte := BitVec 8

/-- `BV(12)`: a data block, a syndrome, half a codeword (30_encoding.md R85, R86). -/
abbrev BV12 := BitVec 12

/-- `BV(24)`: a codeword, a received word, an error pattern (30_encoding.md R84, R87). -/
abbrev BV24 := BitVec 24

end Sys2Proof
end

