-- ==== Sys2Proof/Config.lean ====
section
/-! DEFINITION. What an implementation fixes (the parameters of spec 00_scope.md section 5) and the free values: values the
spec leaves open, opaque constants about which nothing can be proved. -/

namespace Sys2Proof

/-- The three schemes (00_scope.md R1). `passThrough` is the spec's `None`. -/
inductive Scheme where
  | passThrough
  | repetition3
  | golay24
  deriving DecidableEq, Repr

/-- The three byte memories (20_memory.md R50). -/
inductive Space where
  | inBuf
  | outBuf
  | umap
  deriving DecidableEq, Repr

/-- A matrix over GF(2), by rows (40_gf2_datapath.md R103): row `l` is `M[l]`. -/
abbrev Matrix2 (m q : Nat) := Vector (BitVec q) m

/-- The parameters a model takes as arguments (00_scope.md R6, R7, R8). They are held in the state so that a statement
about every state is a statement about every parameter value. `T_OP` is `State.opTimes`. -/
structure Params where
  /-- `P_MATRIX`, by rows (00_scope.md R6). -/
  pMatrix : Matrix2 12 12
  /-- `N_MAX`, the capacity of IN_BUF in bytes (00_scope.md R7). -/
  nMax : Nat
  /-- `P_CORR_LITERAL = 1` (00_scope.md R8). -/
  pCorrLiteral : Bool
  deriving DecidableEq, Repr

/-- The default `P_MATRIX` (10_state.md R37). -/
def Config.defaultP : Matrix2 12 12 :=
  #v[0xDC5#12, 0xB8B#12, 0x717#12, 0xE2D#12, 0xC5B#12, 0x8B7#12,
     0x16F#12, 0x2DD#12, 0x5B9#12, 0xB71#12, 0x6E3#12, 0xFFE#12]

/-- The parameters of the state after reset: the default `P` of R37, the normative `P_CORR_LITERAL = 0` of R8, and
`N_MAX = 64`, the value of 95_test_vectors.md. DESIGN CHOICE (log 1): the spec leaves `N_MAX` open. Unsafe. -/
def Config.defaultParams : Params :=
  { pMatrix := Config.defaultP, nMax := 64, pCorrLiteral := false }

/-- FREE VALUE (log 3): what the cell of a byte that holds no value physically contains, by the number of resets so
far, the memory and the address (20_memory.md R59, 70_reset_and_hazards.md R202). -/
opaque Config.cellByte : Nat → Space → Nat → Byte

/-- FREE VALUE (log 5): the register word a read while STATUS.BUSY = 1 takes its "any value" fields from, fresh for each
read (70_reset_and_hazards.md R210). -/
opaque Config.busyWord : Nat → Word

/-- FREE VALUE (log 5): the byte a read of OUT_BUF or UMAP while STATUS.BUSY = 1 returns, fresh for each read
(70_reset_and_hazards.md R210). -/
opaque Config.busyByte : Nat → Byte

end Sys2Proof
end

