-- ==== Sys2Proof/Syntax.lean ====
section
/-! DEFINITION. The instructions: one constructor per row of spec/opcode_table.json (30_encoding.md R79). -/

namespace Sys2Proof

/-- An instruction of the core. ENC and DEC words do not carry their scheme (30_encoding.md R79), so the decoder of
Decode.lean reads (CFG_VALID, SCHEME) beside the word to choose among the rows. -/
inductive Instr where
  /-- CFG sel (41_command_and_none.md R123); `sel` is the 8-bit field of 30_encoding.md R78. -/
  | cfg (sel : BitVec 8)
  /-- NONE.ENC (41_command_and_none.md R127). -/
  | noneEnc
  /-- NONE.DEC (41_command_and_none.md R128). -/
  | noneDec
  /-- REP3.ENC (42_repetition3.md R141). -/
  | rep3Enc
  /-- REP3.DEC (42_repetition3.md R143). -/
  | rep3Dec
  /-- GOLAY.ENC (43_golay_encoder.md R151). -/
  | golayEnc
  /-- GOLAY.DEC (44_golay_decoder.md R169). -/
  | golayDec
  deriving DecidableEq, Repr

end Sys2Proof
end

