-- ==== Sys2Proof/WellFormed.lean ====
section
/-! DEFINITION. Well-formedness. Every `Instr` is encodable, since its one operand has the width of its field
(30_encoding.md R78); what can fail is the row's condition on (CFG_VALID, SCHEME), and the legality of the parameters. -/

namespace Sys2Proof

/-- The state condition of the instruction's row in 30_encoding.md R79: CFG runs in any configuration, every other
instruction under CFG_VALID = 1 and its own scheme. -/
def Instr.wellFormedIn (cfgValid : Bool) (scheme : Scheme) : Instr → Bool
  | .cfg _ => true
  | .noneEnc => cfgValid && decide (scheme = .passThrough)
  | .noneDec => cfgValid && decide (scheme = .passThrough)
  | .rep3Enc => cfgValid && decide (scheme = .repetition3)
  | .rep3Dec => cfgValid && decide (scheme = .repetition3)
  | .golayEnc => cfgValid && decide (scheme = .golay24)
  | .golayDec => cfgValid && decide (scheme = .golay24)

/-- `P_MATRIX` is symmetric (40_gf2_datapath.md R104). -/
def Params.symmetric (p : Params) : Bool :=
  (List.finRange 12).all fun i => (List.finRange 12).all fun j =>
    p.pMatrix[i].getMsbD j == p.pMatrix[j].getMsbD i

/-- `1 ≤ N_MAX ≤ 2^29 − 1` (00_scope.md R7). -/
def Params.capacityLegal (p : Params) : Bool := decide (1 ≤ p.nMax ∧ p.nMax ≤ 2 ^ 29 - 1)

/-- The legal parameter values (00_scope.md section 5). A model refuses any other (40_gf2_datapath.md R104). -/
def Params.legal (p : Params) : Bool := p.symmetric && p.capacityLegal

end Sys2Proof
end

