-- ==== Sys2Proof/Decode.lean ====
section
/-! DEFINITION. Decoding a command word (spec 30_encoding.md R75 to R82), total on every word and rejecting by name, and
then the encoder. -/

namespace Sys2Proof

/-- What a legal command word says before the configuration is looked at (30_encoding.md R77). -/
inductive Command where
  | cfg (sel : BitVec 8)
  | enc
  | dec
  deriving DecidableEq, Repr

/-- The four ways a word is illegal (30_encoding.md R80 (a) to (d)). -/
inductive IllegalForm where
  /-- (a) `w[31:12] ≠ 0`. -/
  | rsv1
  /-- (b) `w[3:2] ≠ 0`. -/
  | rsv0
  /-- (c) `w[1:0] = 3`. -/
  | opcReserved
  /-- (d) `w[1:0] ∈ {1, 2}` and `w[11:4] ≠ 0`. -/
  | selOnEncDec
  deriving DecidableEq, Repr

/-- Why a word selects no instruction. Both cases complete with a status code: neither stops the machine. -/
inductive Reject where
  /-- The word is illegal: ILLEGAL_CMD (60_exceptions.md R185). -/
  | illegal (form : IllegalForm)
  /-- ENC or DEC while CFG_VALID = 0: NOT_CONFIGURED (60_exceptions.md R184). -/
  | notConfigured
  deriving DecidableEq, Repr

/-- OPC, `w[1:0]` (30_encoding.md R76). -/
def opcField (w : Word) : BitVec 2 := w.extractLsb' 0 2

/-- RSV0, `w[3:2]` (30_encoding.md R76). -/
def rsv0Field (w : Word) : BitVec 2 := w.extractLsb' 2 2

/-- SEL, `w[11:4]` (30_encoding.md R76, R78). -/
def selField (w : Word) : BitVec 8 := w.extractLsb' 4 8

/-- RSV1, `w[31:12]` (30_encoding.md R76). -/
def rsv1Field (w : Word) : BitVec 20 := w.extractLsb' 12 20

/-- The word alone: legality (30_encoding.md R80) and operation (R77). The order of the tests does not matter (R80). -/
def decodeWord (w : Word) : Except Reject Command :=
  if rsv1Field w ≠ 0 then .error (.illegal .rsv1)
  else if rsv0Field w ≠ 0 then .error (.illegal .rsv0)
  else if opcField w = 3 then .error (.illegal .opcReserved)
  else if opcField w = 0 then .ok (.cfg (selField w))
  else if selField w ≠ 0 then .error (.illegal .selOnEncDec)
  else if opcField w = 1 then .ok .enc
  else .ok .dec

/-- ENC under a scheme (41_command_and_none.md R125). -/
def encInstr : Scheme → Instr
  | .passThrough => .noneEnc
  | .repetition3 => .rep3Enc
  | .golay24 => .golayEnc

/-- DEC under a scheme (41_command_and_none.md R125). -/
def decInstr : Scheme → Instr
  | .passThrough => .noneDec
  | .repetition3 => .rep3Dec
  | .golay24 => .golayDec

/-- The row chosen by the command and (CFG_VALID, SCHEME) (30_encoding.md R79, 41_command_and_none.md R124, R125). -/
def selectInstr (cfgValid : Bool) (scheme : Scheme) : Command → Except Reject Instr
  | .cfg sel => .ok (.cfg sel)
  | .enc => if cfgValid then .ok (encInstr scheme) else .error .notConfigured
  | .dec => if cfgValid then .ok (decInstr scheme) else .error .notConfigured

/-- The decoder: a command word under a configuration, legality first (60_exceptions.md R188). -/
def decode (cfgValid : Bool) (scheme : Scheme) (w : Word) : Except Reject Instr :=
  match decodeWord w with
  | .ok c => selectInstr cfgValid scheme c
  | .error r => .error r

/-- A command word from its four fields, bit 31 leftmost (30_encoding.md R76). -/
def assembleWord (rsv1 : BitVec 20) (sel : BitVec 8) (rsv0 opc : BitVec 2) : Word := rsv1 ++ sel ++ rsv0 ++ opc

/-- The encoder: the command word of each row (30_encoding.md R79). -/
def encode : Instr → Word
  | .cfg sel => assembleWord 0 sel 0 0
  | .noneEnc => assembleWord 0 0 0 1
  | .noneDec => assembleWord 0 0 0 2
  | .rep3Enc => assembleWord 0 0 0 1
  | .rep3Dec => assembleWord 0 0 0 2
  | .golayEnc => assembleWord 0 0 0 1
  | .golayDec => assembleWord 0 0 0 2

/-- The command word of an instruction of `nbits` bits numbered as the opcode table numbers them. The core's one format
is 32 bits (30_encoding.md R75): the bits above `nbits` are 0. -/
def tableWord (nbits w : Nat) : Word := BitVec.ofNat 32 (w % 2 ^ nbits)

/-- What the decoder reads from a word of the opcode table. The table's ENC and DEC rows share their words and differ in
(CFG_VALID, SCHEME) (30_encoding.md R79), which this signature cannot carry: the word is read under CFG_VALID = 1 and
SCHEME = 0, the reset value of SCHEME. DESIGN CHOICE (log 8). A word longer than 32 bits is none of the core's (R75). -/
def decodeTableWord (nbits w : Nat) : Option Instr :=
  if nbits ≤ 32 then
    match decode true .passThrough (tableWord nbits w) with
    | .ok i => some i
    | .error _ => none
  else none

end Sys2Proof
end

