-- ==== Sys2Proof/Machine/State.lean ====
section
/-! DEFINITION. The state of the machine, as plain data: the core's registers, buffers and parameters, the command in
flight, the model faults of spec 10_state.md R41, and the host agent with its script (30_encoding.md R90). -/

namespace Sys2Proof.Machine

/-- The values of STATUS.ERR (60_exceptions.md R180). Values 7 to 15 are never written (10_state.md R29), so they are not
values of this type (log 10). -/
inductive StatusCode where
  | ok
  | configError
  | alignError
  | malformed
  | notConfigured
  | illegalCmd
  | lengthError
  deriving DecidableEq, Repr

/-- A byte memory: its bytes that hold a value, as (address, byte) pairs with strictly rising addresses. An address that is
not listed holds no value (20_memory.md R59), so no entry can equal what an unlisted address reads as. -/
abbrev Memory := List Host.Cell

/-- The canonical form of a memory. -/
abbrev Memory.wf (m : Memory) : Prop := (m.map Prod.fst).Pairwise (· < ·)

/-- A recorded model fault: a read of a byte that holds no value (10_state.md R41, 20_memory.md R59). -/
structure ModelFault where
  space : Space
  addr : Nat
  deriving DecidableEq, Repr

/-- Everything a completing command makes visible at once (41_command_and_none.md R122). -/
structure Results where
  /-- STATUS.CFG_VALID (10_state.md R27). -/
  cfgValid : Bool
  /-- STATUS.SCHEME (10_state.md R28). -/
  scheme : Scheme
  /-- STATUS.ERR (10_state.md R29). -/
  err : StatusCode
  /-- STATUS.UNC (10_state.md R30). -/
  unc : Bool
  /-- OUT_LEN (10_state.md R33). -/
  outLen : Word
  /-- NBLK (10_state.md R34). -/
  nblk : Word
  /-- UNCORR_CNT (10_state.md R35). -/
  uncorrCnt : Word
  /-- OUT_BUF (20_memory.md R52). -/
  outBuf : Memory
  /-- UMAP (20_memory.md R55). -/
  umap : Memory
  deriving DecidableEq, Repr

/-- The command in flight: STATUS.BUSY is 1 exactly while there is one (10_state.md R26). -/
structure Flight where
  /-- How many more host lines run while STATUS.BUSY = 1: what is left of `T_OP` (00_scope.md R9, log 2). -/
  remaining : Nat
  /-- What becomes visible at completion (41_command_and_none.md R122). -/
  commit : Results
  deriving DecidableEq, Repr

/-- A host variable (30_encoding.md section 4): the scratch variable `t`, or another by number. -/
abbrev Var := Nat

/-- The scratch variable `t` of 30_encoding.md R91. -/
abbrev Var.scratch : Var := 0

/-- A label of the host script: one the script writes, or the fresh `wait_N` of 30_encoding.md R91. -/
inductive Label where
  | named (n : Nat)
  | wait (n : Nat)
  deriving DecidableEq, Repr

/-- The byte a WRIN line writes: `imm8`, `v[7:0]`, or `v[7:0] ⊕ mask` as FLIPIN computes it (30_encoding.md R90, R91). -/
inductive ByteOperand where
  | imm (b : Byte)
  | var (v : Var)
  | varXor (v : Var) (mask : Byte)
  deriving DecidableEq, Repr

/-- One line of a host script: a base instruction of 30_encoding.md R90, or a `label:`. -/
inductive HostLine where
  | wrreg (off : Nat) (imm : Word)
  | rdreg (off : Nat) (v : Var)
  | wrin (a : Nat) (x : ByteOperand)
  | rdin (a : Nat) (v : Var)
  | rdout (a : Nat) (v : Var)
  | rdumap (a : Nat) (v : Var)
  | reset
  | brbit (v : Var) (b : Nat) (l : Label)
  | halt
  | label (l : Label)
  deriving DecidableEq, Repr

/-- The host agent (00_scope.md R5): its script, where it is in it, its 32-bit variables, and whether HALT has run
(70_reset_and_hazards.md R216). A variable that is not listed is 0 (log 7); no entry is 0. -/
structure Driver where
  script : List HostLine
  pos : Nat
  vars : List (Nat × Word)
  halted : Bool
  deriving DecidableEq, Repr

/-- The state of the machine. -/
structure State where
  /-- The parameters, the ROM's `P` among them (10_state.md R36, 00_scope.md section 5). No step changes them. -/
  params : Params
  /-- IN_LEN (10_state.md R32). -/
  inLen : Word
  /-- STATUS.HZ (10_state.md R31). -/
  hz : Bool
  /-- The registers and buffers the last completed command left. -/
  res : Results
  /-- IN_BUF (20_memory.md R51). -/
  inBuf : Memory
  /-- The command in flight, if any; STATUS.BUSY. -/
  inFlight : Option Flight
  /-- The set of model faults (10_state.md R41), without repeats. -/
  modelFaults : List ModelFault
  /-- `T_OP` of the commands still to be accepted, in order, counted in host lines; 0 where the list has run out
  (00_scope.md R9, log 2). -/
  opTimes : List Nat
  /-- The model's own (log 3): the resets the buffers have been through; an index of the free value `Config.cellByte`. -/
  epoch : Nat
  /-- The model's own (log 5): the reads of any value so far; the index of `Config.busyWord` and `Config.busyByte`. -/
  anyCount : Nat
  /-- The host agent. -/
  driver : Driver
  deriving DecidableEq, Repr

/-- What stops a step with a fault. -/
inductive Fault where
  /-- Raised by a taken BRBIT whose label is on no line of the script. Spec 30_encoding.md R90: "its target is a label of the
  same script", so such a script is none. Safe (log 9). -/
  | noSuchLabel (l : Label)
  deriving DecidableEq, Repr

/-- What a step refuses. -/
inductive Refusal where
  /-- An instruction with no meaning yet. No arm of `exec` raises it: every instruction has its meaning. Safe. -/
  | notModelled (mnemonic : String)
  /-- Raised by every step of a machine whose parameters are not legal (`Params.legal`): 40_gf2_datapath.md R104, "not a
  legal parameter value, and a model refuses it". Safe (log 1). -/
  | illegalParameters
  deriving DecidableEq, Repr

/-- The result registers and buffers right after reset (70_reset_and_hazards.md R201, R202). -/
def Results.reset : Results :=
  { cfgValid := false, scheme := .passThrough, err := .ok, unc := false, outLen := 0, nblk := 0, uncorrCnt := 0,
    outBuf := [], umap := [] }

/-- A host with no script (log 7, log 8). -/
def Driver.idle : Driver := { script := [], pos := 0, vars := [], halted := false }

/-- The machine right after reset (70_reset_and_hazards.md R201 to R203), with the default parameters (log 1), the atomic
`T_OP` of R211 (log 2) and a host with no script (log 8). -/
def State.reset : State :=
  { params := Config.defaultParams, inLen := 0, hz := false, res := Results.reset, inBuf := [], inFlight := none,
    modelFaults := [], opTimes := [], epoch := 0, anyCount := 0, driver := Driver.idle }

end Sys2Proof.Machine
end

