-- ==== Sys2Proof/Machine/Flags.lean ====
section
/-! DEFINITION. The STATUS register: its fields' encodings and its flags (spec 10_state.md R25 to R31). -/

namespace Sys2Proof.Machine

/-- The encoding of STATUS.SCHEME (10_state.md R28). -/
def schemeCode : Scheme → BitVec 2
  | .passThrough => 0
  | .repetition3 => 1
  | .golay24 => 2

/-- The encoding of STATUS.ERR (60_exceptions.md R180). -/
def StatusCode.code : StatusCode → BitVec 4
  | .ok => 0
  | .configError => 1
  | .alignError => 2
  | .malformed => 3
  | .notConfigured => 4
  | .illegalCmd => 5
  | .lengthError => 6

/-- STATUS.UNC from the count of uncorrectable words (10_state.md R30, 41_command_and_none.md R126). -/
def uncFlag (count : Word) : Bool := decide (count ≠ 0)

/-- STATUS.BUSY (10_state.md R26). -/
def State.busy (s : State) : Bool := s.inFlight.isSome

/-- STATUS as a host reads it while BUSY = 0, bit 31 leftmost (10_state.md R25). -/
def State.statusIdle (s : State) : Word :=
  0#22 ++ BitVec.ofBool s.hz ++ BitVec.ofBool s.res.unc ++ s.res.err.code ++ schemeCode s.res.scheme ++
    BitVec.ofBool s.res.cfgValid ++ 0#1

/-- STATUS as a host reads it while BUSY = 1: BUSY and HZ are as they are, bits [8:1] are any value
(70_reset_and_hazards.md R210). -/
def State.statusBusy (s : State) (any : Word) : Word := 0#22 ++ BitVec.ofBool s.hz ++ any.extractLsb' 1 8 ++ 1#1

/-- The effect of a host write that the port discards because BUSY = 1: STATUS.HZ is set, nothing else
(10_state.md R31, 70_reset_and_hazards.md R207 to R209). -/
def State.discardWrite (s : State) : State := { s with hz := true }

end Sys2Proof.Machine
end

