-- ==== Sys2Proof/Machine/Gf2.lean ====
section
/-! DEFINITION. The GF(2) datapath (spec 40_gf2_datapath.md). A `BV(n)` is a `BitVec n` whose index 0 is its most
significant bit (00_scope.md R11, R12), so `⊕` is `^^^` and concatenation is `++`. -/

namespace Sys2Proof.Machine

/-- `v[i]` (00_scope.md R11). -/
def bit {n : Nat} (v : BitVec n) (i : Nat) : Bool := v.getMsbD i

/-- The `BV(n)` with `v[i] = f i`. -/
def ofBits : (n : Nat) → (Nat → Bool) → BitVec n
  | 0, _ => 0#0
  | n + 1, f => BitVec.cons (f 0) (ofBits n fun i => f (i + 1))

/-- The bits of a `BV(n)` in index order. -/
def bitsOf {n : Nat} (v : BitVec n) : List Bool := (List.range n).map (bit v)

/-- `weight(v)` (40_gf2_datapath.md R100). -/
def weight {n : Nat} (v : BitVec n) : Nat := (List.range n).countP (bit v)

/-- `unit_vector(i)` (40_gf2_datapath.md R102). -/
def unitVector (i : Fin 12) : BV12 := ofBits 12 fun j => decide (j = i.val)

/-- `v·M` as the `⊕` of the rows `M[l]` with `v[l] = 1` (40_gf2_datapath.md R103). -/
def vecMat {m q : Nat} (v : BitVec m) (M : Matrix2 m q) : BitVec q :=
  (List.finRange m).foldl (fun acc (l : Fin m) => if bit v l then acc ^^^ M[l] else acc) 0

/-- `G = [P | I_12]` (40_gf2_datapath.md R105). -/
def genMatrix (P : Matrix2 12 12) : Matrix2 12 24 := Vector.ofFn fun l : Fin 12 => P[l] ++ unitVector l

/-- `H^T`, `I_12` stacked over `P` (40_gf2_datapath.md R106). -/
def checkMatrix (P : Matrix2 12 12) : Matrix2 24 12 :=
  (Vector.ofFn fun i : Fin 12 => unitVector i) ++ P

/-- `golay_enc_word(u) = u·G` (40_gf2_datapath.md R109). -/
def golayEncWord (P : Matrix2 12 12) (u : BV12) : BV24 := vecMat u (genMatrix P)

/-- `syndrome(r) = r·H^T` (40_gf2_datapath.md R110). -/
def syndrome (P : Matrix2 12 12) (r : BV24) : BV12 := vecMat r (checkMatrix P)

/-- **INV**: `P·P = I_12`, row by row (40_gf2_datapath.md R107). A named hypothesis on `P_MATRIX`: the machine never assumes it. -/
def INV (P : Matrix2 12 12) : Prop := ∀ i : Fin 12, vecMat P[i] P = unitVector i

/-- **GOLAY**: every nonzero `u` has `weight(u·G) ≥ 8` (40_gf2_datapath.md R107). A named hypothesis on `P_MATRIX`: the machine
never assumes it. -/
def GOLAY (P : Matrix2 12 12) : Prop := ∀ u : BV12, u ≠ 0 → 8 ≤ weight (golayEncWord P u)

/-- `maj3(a, b, c)` (40_gf2_datapath.md R112). -/
def maj3 (a b c : Bool) : Bool := ((a && b) ^^ (a && c)) ^^ (b && c)

/-- `c[0..11]`, the parity half (30_encoding.md R84). -/
def parityHalf (c : BV24) : BV12 := c.extractLsb' 12 12

/-- `c[12..23]`, the data half (30_encoding.md R84). -/
def dataHalf (c : BV24) : BV12 := c.extractLsb' 0 12

end Sys2Proof.Machine
end

