-- ==== Sys2Proof/Machine/Stream.lean ====
section
/-! DEFINITION. Bit streams: unpacking and packing byte buffers (spec 20_memory.md R53, R54), and cutting a stream into
blocks. A stream is the list of its bits in index order. -/

namespace Sys2Proof.Machine

/-- `unpack`: bit 7 of byte 0 comes first (20_memory.md R53). -/
def unpack (bytes : List Byte) : List Bool := bytes.flatMap bitsOf

/-- `pack`: `ceil(L/8)` bytes, most significant bit first, padded with 0 (20_memory.md R54). -/
def pack (y : List Bool) : List Byte :=
  (List.range ((y.length + 7) / 8)).map fun i => ofBits 8 fun t => y.getD (8 * i + t) false

/-- The first `K` blocks of `w` bits of a stream: block `k` is `x[w·k .. w·k + w − 1]` (43_golay_encoder.md R150,
44_golay_decoder.md R160). -/
def blocks (w : Nat) (x : List Bool) (K : Nat) : List (BitVec w) :=
  (List.range K).map fun k => ofBits w fun t => x.getD (w * k + t) false

end Sys2Proof.Machine
end

