-- ==== Sys2Proof/Machine/Ops.lean ====
section
/-! DEFINITION. The operations over the memories and registers that the meanings share: reading and writing bytes, the
two completions of a command (spec 41_command_and_none.md R126, 60_exceptions.md R189), its life cycle (41_command_and_none.md
R120, R122) and reset (70_reset_and_hazards.md R200 to R203). -/

namespace Sys2Proof.Machine

/-! ## Tables: sorted lists of (number, word) pairs -/

/-- The word listed at `a`, if any. -/
def lookupCell {w : Nat} (a : Nat) : List (Nat × BitVec w) → Option (BitVec w)
  | [] => none
  | (b, x) :: rest => if a = b then some x else lookupCell a rest

/-- List `v` at `a`, keeping the numbers strictly rising. -/
def putCell {w : Nat} (a : Nat) (v : BitVec w) : List (Nat × BitVec w) → List (Nat × BitVec w)
  | [] => [(a, v)]
  | (b, x) :: rest =>
    if a < b then (a, v) :: (b, x) :: rest
    else if a = b then (a, v) :: rest
    else (b, x) :: putCell a v rest

/-- Take `a` off the list. -/
def dropCell {w : Nat} (a : Nat) : List (Nat × BitVec w) → List (Nat × BitVec w)
  | [] => []
  | (b, x) :: rest => if a = b then dropCell a rest else (b, x) :: dropCell a rest

/-! ## Bytes -/

/-- The byte at `a`, or `none` where it holds no value (20_memory.md R59). -/
def Memory.read (m : Memory) (a : Nat) : Option Byte := lookupCell a m

/-- `MemWrite` of one byte (00_scope.md R14). -/
def Memory.write (m : Memory) (a : Nat) (v : Byte) : Memory := putCell a v m

/-- Bytes written from `a` upward (41_command_and_none.md R126). -/
def Memory.writeFrom (m : Memory) (a : Nat) : List Byte → Memory
  | [] => m
  | b :: bs => Memory.writeFrom (m.write a b) (a + 1) bs

/-- The memory of a space. -/
def State.mem (s : State) : Space → Memory
  | .inBuf => s.inBuf
  | .outBuf => s.res.outBuf
  | .umap => s.res.umap

/-- The capacity in bytes of IN_BUF, OUT_BUF and UMAP (20_memory.md R50). -/
def State.capacity (s : State) : Space → Nat
  | .inBuf => s.params.nMax
  | .outBuf => 3 * s.params.nMax
  | .umap => (s.params.nMax / 3 + 7) / 8

/-- What the cell at `a` gives: its byte, or the free value of a byte that holds none (20_memory.md R59, log 3). -/
def State.byteAt (s : State) (sp : Space) (a : Nat) : Byte :=
  match (s.mem sp).read a with
  | some b => b
  | none => Config.cellByte s.epoch sp a

/-- Record a model fault; the set has no repeats and is never cleared (10_state.md R41). -/
def State.recordFault (s : State) (f : ModelFault) : State :=
  if f ∈ s.modelFaults then s else { s with modelFaults := s.modelFaults ++ [f] }

/-- A read of the byte at `a` records a model fault where it holds no value (20_memory.md R59). -/
def State.noteRead (s : State) (sp : Space) (a : Nat) : State :=
  match (s.mem sp).read a with
  | some _ => s
  | none => s.recordFault ⟨sp, a⟩

/-! ## Completion of a command -/

/-- `commit_ok(y, K, m)` (41_command_and_none.md R126) on the result registers and buffers. -/
def Results.commitOk (r : Results) (y : List Bool) (blockCount : Nat) (map : Option (List Bool)) : Results :=
  let uncorr : Word :=
    match map with
    | some m => BitVec.ofNat 32 (m.count true)
    | none => 0
  { r with
    outBuf := r.outBuf.writeFrom 0 (pack y)
    outLen := BitVec.ofNat 32 (pack y).length
    nblk := BitVec.ofNat 32 blockCount
    umap :=
      match map with
      | some m => r.umap.writeFrom 0 (pack m)
      | none => r.umap
    uncorrCnt := uncorr
    unc := uncFlag uncorr
    err := .ok }

/-- The error commit `raise Err(CODE)` (60_exceptions.md R189) on the result registers: the code is recorded, the result
registers are cleared, no buffer byte is written. It is what the core has in place of a trap (R190). -/
def Results.commitErr (r : Results) (code : StatusCode) : Results :=
  { r with err := code, unc := false, outLen := 0, nblk := 0, uncorrCnt := 0 }

/-- `commit_ok` on the machine. -/
def State.commitOk (s : State) (y : List Bool) (blockCount : Nat) (map : Option (List Bool)) : State :=
  { s with res := s.res.commitOk y blockCount map }

/-- `raise Err(CODE)` on the machine (60_exceptions.md R189). -/
def State.raiseErr (s : State) (code : StatusCode) : State := { s with res := s.res.commitErr code }

/-- CFG_VALID and SCHEME written by a CFG (41_command_and_none.md R123). -/
def State.setCodec (s : State) (valid : Bool) (scheme : Scheme) : State :=
  { s with res := { s.res with cfgValid := valid, scheme := scheme } }

/-! ## The life cycle of a command -/

/-- Acceptance clears STATUS.HZ (41_command_and_none.md R120). BUSY becomes 1 in `State.launch`. -/
def State.accept (s : State) : State := { s with hz := false }

/-- Put the accepted command in flight for its duration. `s` is the machine at acceptance and `done` the machine with the
command's whole effect: with `T_OP = 0` the command is complete at once (70_reset_and_hazards.md R211), otherwise its
results stay invisible for the next `T_OP` host lines (41_command_and_none.md R122). -/
def State.launch (s done : State) : State :=
  match s.opTimes with
  | [] => done
  | 0 :: later => { done with opTimes := later }
  | (d + 1) :: later => { done with opTimes := later, res := s.res, inFlight := some ⟨d + 1, done.res⟩ }

/-- Completion: everything the command wrote becomes visible at once and BUSY becomes 0 (41_command_and_none.md R122). -/
def State.complete (s : State) : State :=
  match s.inFlight with
  | none => s
  | some f => { s with res := f.commit, inFlight := none }

/-- One host line's worth of time passes for the command in flight (00_scope.md R9, log 2). -/
def State.tick (s : State) : State :=
  match s.inFlight with
  | none => s
  | some f => if f.remaining ≤ 1 then s.complete else { s with inFlight := some { f with remaining := f.remaining - 1 } }

/-! ## Reset -/

/-- The RESET input (70_reset_and_hazards.md R200 to R203): every register at its reset value, every buffer byte without
value, the command in flight lost. The parameters stay (R206), the model faults stay (10_state.md R41), and the host is
not reset: it asserts the input. -/
def State.applyReset (s : State) : State :=
  { s with inLen := 0, hz := false, res := Results.reset, inBuf := [], inFlight := none, epoch := s.epoch + 1 }

/-! ## The host's variables -/

/-- The value of a variable; 0 before its first assignment (log 7). -/
def varOf (vars : List (Nat × Word)) (v : Var) : Word := (lookupCell v vars).getD 0

/-- `v <- x`, in the canonical form in which no entry is 0. -/
def assignVar (vars : List (Nat × Word)) (v : Var) (x : Word) : List (Nat × Word) :=
  if x = 0 then dropCell v vars else putCell v x vars

/-- The value of a host variable. -/
def State.varValue (s : State) (v : Var) : Word := varOf s.driver.vars v

/-- `v <- x` on the host. -/
def State.setVar (s : State) (v : Var) (x : Word) : State :=
  { s with driver := { s.driver with vars := assignVar s.driver.vars v x } }

/-- The host goes on at the next line. -/
def State.advance (s : State) : State := { s with driver := { s.driver with pos := s.driver.pos + 1 } }

/-- The host goes on at line `p`. -/
def State.jump (s : State) (p : Nat) : State := { s with driver := { s.driver with pos := p } }

/-- The host's script ends (70_reset_and_hazards.md R216). -/
def State.halt (s : State) : State := { s with driver := { s.driver with halted := true } }

end Sys2Proof.Machine
end

