-- ==== Sys2Proof/Machine/Operands.lean ====
section
/-! DEFINITION. Where a command's operands come from: the selector of CFG (spec 30_encoding.md R78), and IN_LEN and the
input bytes of ENC and DEC (41_command_and_none.md R124). -/

namespace Sys2Proof.Machine

/-- The scheme a selector names: 0, 1 or 2; any other value is a configuration error (30_encoding.md R78, R81). -/
def selectorScheme (sel : BitVec 8) : Option Scheme :=
  if sel = 0 then some .passThrough
  else if sel = 1 then some .repetition3
  else if sel = 2 then some .golay24
  else none

/-- The bytes IN_BUF[0 .. n−1], ascending (20_memory.md R53); a byte that holds no value is a free value. -/
def State.inputBytes (s : State) (n : Nat) : List Byte := (List.range n).map (s.byteAt .inBuf)

/-- `unpack(IN_BUF, n)` records a model fault for every byte it reads that holds no value (20_memory.md R59). -/
def State.noteInput (s : State) (n : Nat) : State := (List.range n).foldl (fun s a => s.noteRead .inBuf a) s

/-- The preamble of ENC and DEC (41_command_and_none.md R124): NOT_CONFIGURED, then LENGTH_ERROR, then the rest of the
command on `n = IN_LEN`. -/
def State.withLength (s : State) (body : Nat → State) : State :=
  if s.res.cfgValid = false then s.raiseErr .notConfigured
  else if s.params.nMax < s.inLen.toNat then s.raiseErr .lengthError
  else body s.inLen.toNat

/-- The alignment check of a scheme: `n mod 3 ≠ 0` raises `code` (60_exceptions.md R182, R183). -/
def State.withAligned (s : State) (n : Nat) (code : StatusCode) (body : State) : State :=
  if n % 3 ≠ 0 then s.raiseErr code else body

/-- A command that turns its input stream into an output stream: it reads IN_BUF[0 .. n−1] and commits `f` of the
stream with `blockCount` blocks and no map (41_command_and_none.md R126). -/
def State.transform (s : State) (n : Nat) (f : List Bool → List Bool) (blockCount : Nat) : State :=
  (s.noteInput n).commitOk (f (unpack (s.inputBytes n))) blockCount none

end Sys2Proof.Machine
end

