-- ==== Sys2Proof/Machine/Cfg.lean ====
section
/-! DEFINITION. CFG (spec 41_command_and_none.md R123). -/

namespace Sys2Proof.Machine

/-- CFG sel (41_command_and_none.md R123, 60_exceptions.md R181). -/
def execCfg (sel : BitVec 8) (s : State) : Host.Outcome State Fault Refusal :=
  .next <|
    match selectorScheme sel with
    | some scheme => (s.setCodec true scheme).commitOk [] 0 none
    | none => (s.setCodec false .passThrough).raiseErr .configError

end Sys2Proof.Machine
end

