-- ==== Sys2Proof/Machine/Corrector.lean ====
section
/-! DEFINITION. The error-pattern corrector and the recovery of a data block (spec 44_golay_decoder.md R162 to R168). -/

namespace Sys2Proof.Machine

/-- The step that found the pattern (44_golay_decoder.md R162). -/
inductive CorrectorStep where
  | s2
  | s3 (i : Fin 12)
  | s4
  | s5 (i : Fin 12)
  deriving DecidableEq, Repr

/-- Step 2 (44_golay_decoder.md R163). -/
def correctStep2 (s : BV12) : Option (CorrectorStep × BV24) :=
  if weight s ≤ 3 then some (.s2, s ++ 0#12) else none

/-- Step 3: the first `i`, ascending, with `weight(s ⊕ P[i]) ≤ 2` (44_golay_decoder.md R164). -/
def correctStep3 (P : Matrix2 12 12) (s : BV12) : Option (CorrectorStep × BV24) :=
  (List.finRange 12).findSome? fun i =>
    if weight (s ^^^ P[i]) ≤ 2 then some (.s3 i, (s ^^^ P[i]) ++ unitVector i) else none

/-- Step 4, on `sp = s·P`: exactly the weights 2 and 3 (44_golay_decoder.md R165). -/
def correctStep4 (sp : BV12) : Option (CorrectorStep × BV24) :=
  if weight sp = 2 ∨ weight sp = 3 then some (.s4, 0#12 ++ sp) else none

/-- Step 5, on `sp = s·P`: the first `i`, ascending, with `weight(sp ⊕ P[i]) = 2` (44_golay_decoder.md R166). -/
def correctStep5 (P : Matrix2 12 12) (sp : BV12) : Option (CorrectorStep × BV24) :=
  (List.finRange 12).findSome? fun i =>
    if weight (sp ^^^ P[i]) = 2 then some (.s5 i, unitVector i ++ (sp ^^^ P[i])) else none

/-- `correct(s)`: the steps in order, the first that produces a pattern wins; `none` is UNCORRECTABLE
(44_golay_decoder.md R162, R167). -/
def correct (P : Matrix2 12 12) (s : BV12) : Option (CorrectorStep × BV24) :=
  match correctStep2 s with
  | some r => some r
  | none =>
    match correctStep3 P s with
    | some r => some r
    | none =>
      match correctStep4 (vecMat s P) with
      | some r => some r
      | none => correctStep5 P (vecMat s P)

/-- Step 7: the data half of the received word corrected with the half of `e` over it, or with the other half under
`P_CORR_LITERAL = 1` (44_golay_decoder.md R168, 90_conflicts.md C1). -/
def recoverData (literal : Bool) (r e : BV24) : BV12 :=
  if literal then dataHalf r ^^^ parityHalf e else dataHalf r ^^^ dataHalf e

/-- One received word decoded: its data block, or `none` where it is uncorrectable (44_golay_decoder.md R161 to R168). -/
def golayDecWord (P : Matrix2 12 12) (literal : Bool) (r : BV24) : Option BV12 :=
  match correct P (syndrome P r) with
  | some (_, e) => some (recoverData literal r e)
  | none => none

end Sys2Proof.Machine
end

