-- ==== Sys2Proof/Machine/Golay.lean ====
section
/-! DEFINITION. Scheme Golay24_12 (spec 43_golay_encoder.md, 44_golay_decoder.md). -/

namespace Sys2Proof.Machine

/-- The encoded stream: every 12-bit chunk as its codeword (43_golay_encoder.md R150, R151). -/
def golayEncStream (P : Matrix2 12 12) (K : Nat) (x : List Bool) : List Bool :=
  (blocks 12 x K).flatMap fun u => bitsOf (golayEncWord P u)

/-- The received words of a stream, each decoded on its own (44_golay_decoder.md R160, R169). -/
def golayDecBlocks (P : Matrix2 12 12) (literal : Bool) (K : Nat) (x : List Bool) : List (Option BV12) :=
  (blocks 24 x K).map (golayDecWord P literal)

/-- The data stream: the recovered blocks, `0^12` for an uncorrectable word (44_golay_decoder.md R169, R170). -/
def golayDataStream (ds : List (Option BV12)) : List Bool := ds.flatMap fun d => bitsOf (d.getD 0)

/-- The map `m` of uncorrectable words (44_golay_decoder.md R169, R170). -/
def golayMap (ds : List (Option BV12)) : List Bool := ds.map Option.isNone

/-- GOLAY.ENC (43_golay_encoder.md R151). -/
def execGolayEnc (s : State) : Host.Outcome State Fault Refusal :=
  .next <| s.withLength fun n => s.withAligned n .alignError <|
    s.transform n (golayEncStream s.params.pMatrix (8 * n / 12)) (8 * n / 12)

/-- GOLAY.DEC (44_golay_decoder.md R169). -/
def execGolayDec (s : State) : Host.Outcome State Fault Refusal :=
  .next <| s.withLength fun n => s.withAligned n .alignError <|
    let ds := golayDecBlocks s.params.pMatrix s.params.pCorrLiteral (n / 3) (unpack (s.inputBytes n))
    (s.noteInput n).commitOk (golayDataStream ds) (n / 3) (some (golayMap ds))

end Sys2Proof.Machine
end

