-- ==== Sys2Proof/Machine/PassThrough.lean ====
section
/-! DEFINITION. Scheme None (spec 41_command_and_none.md R127, R128). -/

namespace Sys2Proof.Machine

/-- NONE.ENC (41_command_and_none.md R127). -/
def execNoneEnc (s : State) : Host.Outcome State Fault Refusal :=
  .next <| s.withLength fun n => s.transform n id 0

/-- NONE.DEC (41_command_and_none.md R128). -/
def execNoneDec (s : State) : Host.Outcome State Fault Refusal :=
  .next <| s.withLength fun n => s.transform n id 0

end Sys2Proof.Machine
end

