-- ==== Sys2Proof/Machine/Repetition3.lean ====
section
/-! DEFINITION. Scheme Repetition3 (spec 42_repetition3.md). -/

namespace Sys2Proof.Machine

/-- `rep3_expand`: every source bit three times (42_repetition3.md R140). -/
def rep3Expand (x : List Bool) : List Bool := x.flatMap fun b => [b, b, b]

/-- `rep3_vote`: the majority of every triplet (42_repetition3.md R142). -/
def rep3Vote : List Bool → List Bool
  | a :: b :: c :: rest => maj3 a b c :: rep3Vote rest
  | _ => []

/-- REP3.ENC (42_repetition3.md R141). -/
def execRep3Enc (s : State) : Host.Outcome State Fault Refusal :=
  .next <| s.withLength fun n => s.transform n rep3Expand (8 * n)

/-- REP3.DEC (42_repetition3.md R143). -/
def execRep3Dec (s : State) : Host.Outcome State Fault Refusal :=
  .next <| s.withLength fun n => s.withAligned n .malformed <| s.transform n rep3Vote (8 * n / 3)

end Sys2Proof.Machine
end

