-- ==== Sys2Proof/Machine/Dispatch.lean ====
section
/-! DEFINITION. The meaning of every instruction, by constructor. `exec i s` is the effect the instruction has at its
completion on the machine that accepted it; `State.launch` in Ops.lean says when that effect becomes visible. -/

namespace Sys2Proof.Machine

def exec (i : Instr) (s : State) : Host.Outcome State Fault Refusal :=
  match i with
  | .cfg sel => Sys2Proof.Machine.execCfg sel s
  | .noneEnc => Sys2Proof.Machine.execNoneEnc s
  | .noneDec => Sys2Proof.Machine.execNoneDec s
  | .rep3Enc => Sys2Proof.Machine.execRep3Enc s
  | .rep3Dec => Sys2Proof.Machine.execRep3Dec s
  | .golayEnc => Sys2Proof.Machine.execGolayEnc s
  | .golayDec => Sys2Proof.Machine.execGolayDec s

end Sys2Proof.Machine
end

