-- ==== Sys2Proof/Machine/HostPort.lean ====
section
/-! DEFINITION. The host port and the host agent: presenting a command word (spec 41_command_and_none.md R120 to R125),
register and buffer accesses idle and busy (10_state.md R22 to R35, 20_memory.md R51 to R55, 70_reset_and_hazards.md R207 to
R210), and one line of the host script (30_encoding.md R90). -/

namespace Sys2Proof.Machine

/-- The code a rejected word completes with (60_exceptions.md R184, R185). -/
def rejectCode : Reject → StatusCode
  | .illegal _ => .illegalCmd
  | .notConfigured => .notConfigured

/-- Change the next state of an outcome. -/
def mapNext (f : State → State) : Host.Outcome State Fault Refusal → Host.Outcome State Fault Refusal
  | .next s => .next (f s)
  | .fault r => .fault r
  | .refused r => .refused r

/-- A CMD write while BUSY = 0: the word is accepted, decoded under the configuration it finds, executed, and put in
flight (41_command_and_none.md R120 to R125). -/
def State.submit (s : State) (w : Word) : Host.Outcome State Fault Refusal :=
  match decode s.res.cfgValid s.res.scheme w with
  | .ok i => mapNext s.accept.launch (exec i s.accept)
  | .error r => .next (s.accept.launch (s.accept.raiseErr (rejectCode r)))

/-- A host write of a register (10_state.md R22 to R24, R32, 70_reset_and_hazards.md R207, R208): CMD and IN_LEN take it,
unless BUSY = 1 and it is discarded; any other offset ignores it. The time of the access passes for a command that was
already in flight. -/
def State.writeReg (s : State) (off : Nat) (w : Word) : Host.Outcome State Fault Refusal :=
  if off = 0x00 then
    if s.busy then .next s.discardWrite.tick else s.submit w
  else if off = 0x08 then
    .next (if s.busy then s.discardWrite.tick else { s with inLen := w })
  else .next s.tick

/-- A location whose read while BUSY = 1 returns any value (70_reset_and_hazards.md R210): the stored word while idle, the
next free value while busy (log 5). -/
def State.readResult (s : State) (stored : Word) : Word × State :=
  if s.busy then (Config.busyWord s.anyCount, { s with anyCount := s.anyCount + 1 }) else (stored, s)

/-- A host read of a register (10_state.md R22 to R25, R32 to R35, 70_reset_and_hazards.md R210). CMD and the offsets
that are no register read 0. -/
def State.readReg (s : State) (off : Nat) : Word × State :=
  if off = 0x04 then
    if s.busy then (s.statusBusy (Config.busyWord s.anyCount), { s with anyCount := s.anyCount + 1 })
    else (s.statusIdle, s)
  else if off = 0x08 then (s.inLen, s)
  else if off = 0x0C then s.readResult s.res.outLen
  else if off = 0x10 then s.readResult s.res.nblk
  else if off = 0x14 then s.readResult s.res.uncorrCnt
  else (0, s)

/-- A host write of an IN_BUF byte (20_memory.md R51, 70_reset_and_hazards.md R209). Beyond the capacity there is no
byte to write: the write is ignored, and sets no HZ (log 6). -/
def State.writeIn (s : State) (a : Nat) (b : Byte) : State :=
  if s.capacity .inBuf ≤ a then s
  else if s.busy then s.discardWrite
  else { s with inBuf := s.inBuf.write a b }

/-- A host read of a buffer byte (20_memory.md R51, R52, R55, R59, 70_reset_and_hazards.md R210): 0 beyond the capacity; a
model fault where the byte holds no value; any value of OUT_BUF and UMAP while BUSY = 1. -/
def State.readByte (s : State) (sp : Space) (a : Nat) : Byte × State :=
  if s.capacity sp ≤ a then (0, s)
  else if s.busy && decide (sp ≠ .inBuf) then
    (Config.busyByte s.anyCount, { s.noteRead sp a with anyCount := s.anyCount + 1 })
  else (s.byteAt sp a, s.noteRead sp a)

/-- The byte a WRIN line writes (30_encoding.md R90, R91). -/
def State.byteOperand (s : State) : ByteOperand → Byte
  | .imm b => b
  | .var v => (s.varValue v).extractLsb' 0 8
  | .varXor v mask => (s.varValue v).extractLsb' 0 8 ^^^ mask

/-- The line a label stands on, from line `p` on. -/
def findLabelFrom (l : Label) (p : Nat) : List HostLine → Option Nat
  | [] => none
  | line :: rest => if line = .label l then some p else findLabelFrom l (p + 1) rest

/-- The line a label stands on in a script (30_encoding.md R90). -/
def findLabel (l : Label) (script : List HostLine) : Option Nat := findLabelFrom l 0 script

/-- A read into a host variable, `v <- value`, and the time of the access. -/
def State.finishRead (v : Var) (r : Word × State) : State := (r.2.setVar v r.1).advance.tick

/-- A byte read into a host variable is zero-extended (30_encoding.md R90). -/
def State.finishByteRead (v : Var) (r : Byte × State) : State := State.finishRead v (r.1.setWidth 32, r.2)

/-- One line of the host script (30_encoding.md R90). -/
def runLine (line : HostLine) (s : State) : Host.Outcome State Fault Refusal :=
  match line with
  | .wrreg off w => s.advance.writeReg off w
  | .rdreg off v => .next (State.finishRead v (s.readReg off))
  | .wrin a x => .next (s.writeIn a (s.byteOperand x)).advance.tick
  | .rdin a v => .next (State.finishByteRead v (s.readByte .inBuf a))
  | .rdout a v => .next (State.finishByteRead v (s.readByte .outBuf a))
  | .rdumap a v => .next (State.finishByteRead v (s.readByte .umap a))
  | .reset => .next s.applyReset.advance
  | .brbit v b l =>
    if (s.varValue v).getLsbD b then
      match findLabel l s.driver.script with
      | some p => .next (s.jump p).tick
      | none => .fault (.noSuchLabel l)
    else .next s.advance.tick
  | .halt => .next s.halt.tick
  | .label _ => .next s.advance.tick

/-- The line the host runs next: none after HALT or past the end of the script. -/
def Driver.current (d : Driver) : Option HostLine := if d.halted then none else d.script[d.pos]?

/-- One step: the host's next line; where the host has none, time passes and the core holds its state
(70_reset_and_hazards.md R204, 60_exceptions.md R199). -/
def State.runNext (s : State) : Host.Outcome State Fault Refusal :=
  match s.driver.current with
  | some line => runLine line s
  | none => .next s.tick

/-- A codec instance of scheme 0 for an ENC or DEC word on an unconfigured core, which selects no instruction there; the
configuration is kept where there is one (log 8). -/
def State.selectFor (s : State) (w : Word) : State :=
  match decodeWord w with
  | .ok .enc => if s.res.cfgValid then s else s.setCodec true .passThrough
  | .ok .dec => if s.res.cfgValid then s else s.setCodec true .passThrough
  | .ok (.cfg _) => s
  | .error _ => s

/-- The host's next line is a write of `w` to CMD; the lines that were next follow it. -/
def Driver.withCmdWrite (d : Driver) (w : Word) : Driver :=
  { d with
    script := d.script.take d.pos ++ .wrreg 0x00 w :: d.script.drop d.pos
    pos := (d.script.take d.pos).length
    halted := false }

/-- The core idle (a command in flight completes), the word's instruction selected, and the write of `w` to CMD next. -/
def State.placeCommand (s : State) (w : Word) : State :=
  let t := s.complete.selectFor w
  { t with driver := t.driver.withCmdWrite w }

end Sys2Proof.Machine
end

