-- ==== Sys2Proof/Machine/Step.lean ====
section
/-! DEFINITION. One step of the machine: one line of the host script, with what it makes the core do. -/

namespace Sys2Proof.Machine

/-- One step. A machine with illegal parameters is refused (spec 40_gf2_datapath.md R104, 00_scope.md R7). -/
def step (s : State) : Host.Outcome State Fault Refusal :=
  if s.params.legal then s.runNext else .refused .illegalParameters

/-- The state whose next step presents the opcode table's word `w` to the core: the host's next line writes it to CMD. A
command in flight is complete, and an ENC or DEC word on an unconfigured core finds a codec instance of scheme 0, so that
the word selects an instruction (log 8). -/
def State.withFetchWord (s : State) (nbits w : Nat) : State := s.placeCommand (tableWord nbits w)

end Sys2Proof.Machine
end

