-- ==== Sys2Proof/Machine/Script.lean ====
section
/-! DEFINITION. The pseudo-instructions of the host script and their expansions (spec 30_encoding.md R91). -/

namespace Sys2Proof.Machine

/-- A line of a host script before expansion (30_encoding.md section 4): a base line or a pseudo-instruction. -/
inductive SourceLine where
  | base (line : HostLine)
  | wait
  | cfg (sel : BitVec 8)
  | enc
  | dec
  | len (n : Word)
  | load (a : Nat) (bytes : List Byte)
  | stat (v : Var)
  | copyout (n : Nat)
  | flipin (a : Nat) (mask : Byte)
  deriving DecidableEq, Repr

/-- `WAIT` with the fresh label number `N` (30_encoding.md R91). -/
def expandWait (N : Nat) : List HostLine :=
  [.label (.wait N), .rdreg 0x04 Var.scratch, .brbit Var.scratch 0 (.wait N)]

/-- The expansion of one line (30_encoding.md R91); `N` is the fresh label number of its `WAIT`, if it has one. -/
def expandLine (N : Nat) : SourceLine → List HostLine
  | .base line => [line]
  | .wait => expandWait N
  | .cfg sel => .wrreg 0x00 (encode (.cfg sel)) :: expandWait N
  | .enc => .wrreg 0x00 1 :: expandWait N
  | .dec => .wrreg 0x00 2 :: expandWait N
  | .len n => [.wrreg 0x08 n]
  | .load a bytes => bytes.zipIdx.map fun (b, i) => .wrin (a + i) (.imm b)
  | .stat v => [.rdreg 0x04 v]
  | .copyout n => (List.range n).flatMap fun i => [.rdout i Var.scratch, .wrin i (.var Var.scratch)]
  | .flipin a mask => [.rdin a Var.scratch, .wrin a (.varXor Var.scratch mask)]

/-- A script expanded, from label number `N` on: one fresh number per source line. -/
def expandFrom (N : Nat) : List SourceLine → List HostLine
  | [] => []
  | line :: rest => expandLine N line ++ expandFrom (N + 1) rest

/-- A host script expanded to its base lines (30_encoding.md R91, R92). -/
def expandScript (lines : List SourceLine) : List HostLine := expandFrom 0 lines

/-- The machine with a script loaded into the host, at its first line (log 8). -/
def State.withScript (s : State) (lines : List SourceLine) : State :=
  { s with driver := { s.driver with script := expandScript lines, pos := 0, halted := false } }

end Sys2Proof.Machine
end

