-- ==== Sys2Proof/Safety.lean ====
section
/-! DEFINITION. The terms claims are made in: bits and blocks of the buffers, the conditions a host must meet (spec
70_reset_and_hazards.md R212, R213), what a command may change, and the invariant of the machine. -/

namespace Sys2Proof.Machine

/-! ## Buffers as bit streams -/

/-- Bit `p` of a buffer as a stream: bit `7 − p mod 8` of byte `p div 8` (20_memory.md R53). -/
def State.bitAt (s : State) (sp : Space) (p : Nat) : Bool := bit (s.byteAt sp (p / 8)) (p % 8)

/-- Block `k` of `w` bits of a buffer as a stream (43_golay_encoder.md R150, 44_golay_decoder.md R160). -/
def State.blockAt (s : State) (sp : Space) (w k : Nat) : BitVec w := ofBits w fun t => s.bitAt sp (w * k + t)

/-- The byte at `a` holds a value (20_memory.md R59). -/
abbrev Memory.holds (m : Memory) (a : Nat) : Prop := (m.read a).isSome = true

/-! ## What a host must respect -/

/-- Every input byte of the next ENC or DEC holds a value (70_reset_and_hazards.md R213). -/
abbrev State.inputReady (s : State) : Prop := ∀ a < s.inLen.toNat, s.inBuf.holds a

/-- The conditions under which an ENC or DEC passes its preamble (41_command_and_none.md R124). -/
abbrev State.configured (s : State) : Prop := s.res.cfgValid = true ∧ s.inLen.toNat ≤ s.params.nMax

/-- A claim about a run must assume that no model fault is recorded (10_state.md R41). -/
abbrev State.clean (s : State) : Prop := s.modelFaults = []

/-- The line does nothing that 70_reset_and_hazards.md R212 forbids before the host has seen BUSY = 0: no write of CMD,
IN_LEN or IN_BUF. -/
def HostLine.waitsToWrite : HostLine → Bool
  | .wrreg off _ => decide (off ≠ 0x00) && decide (off ≠ 0x08)
  | .wrin _ _ => false
  | .rdreg _ _ => true
  | .rdin _ _ => true
  | .rdout _ _ => true
  | .rdumap _ _ => true
  | .reset => true
  | .brbit _ _ _ => true
  | .halt => true
  | .label _ => true

/-- Every branch of the script goes to a label of the same script (30_encoding.md R90). -/
def Driver.labelled (d : Driver) : Bool :=
  d.script.all fun line =>
    match line with
    | .brbit _ _ l => (findLabel l d.script).isSome
    | .wrreg _ _ => true
    | .rdreg _ _ => true
    | .wrin _ _ => true
    | .rdin _ _ => true
    | .rdout _ _ => true
    | .rdumap _ _ => true
    | .reset => true
    | .halt => true
    | .label _ => true

/-- The host line that reads the byte at `a` of a buffer into `v` (30_encoding.md R90). -/
def readLine : Space → Nat → Var → HostLine
  | .inBuf, a, v => .rdin a v
  | .outBuf, a, v => .rdout a v
  | .umap, a, v => .rdumap a v

/-! ## Frames -/

/-- Nothing but the result registers, the output buffers and the set of model faults differs between `s` and `t`. -/
abbrev OnlyResultsChange (s t : State) : Prop := t = { s with res := t.res, modelFaults := t.modelFaults }

/-- The OUT_BUF bytes from `len` on are as they were (20_memory.md R68). -/
abbrev OutBufKeptFrom (len : Nat) (s t : State) : Prop := ∀ a, len ≤ a → t.res.outBuf.read a = s.res.outBuf.read a

/-- The UMAP bytes from `len` on are as they were (20_memory.md R55, R68). -/
abbrev UmapKeptFrom (len : Nat) (s t : State) : Prop := ∀ a, len ≤ a → t.res.umap.read a = s.res.umap.read a

/-- The configuration is as it was: only CFG writes it (10_state.md R27, R28). -/
abbrev ConfigKept (s t : State) : Prop := t.res.cfgValid = s.res.cfgValid ∧ t.res.scheme = s.res.scheme

/-- The result registers after the error commit with `code`, spelt out (60_exceptions.md R189): the code is recorded, the
counts are cleared, no buffer byte and no configuration field is written. -/
abbrev Results.failedWith (r : Results) (code : StatusCode) : Results :=
  { cfgValid := r.cfgValid, scheme := r.scheme, err := code, unc := false, outLen := 0, nblk := 0, uncorrCnt := 0,
    outBuf := r.outBuf, umap := r.umap }

/-- The command word is illegal: 30_encoding.md R80 (a) to (d), on the word as a number (00_scope.md R13). -/
abbrev IllegalWord (w : Word) : Prop :=
  w.toNat / 2 ^ 12 ≠ 0 ∨ w.toNat / 2 ^ 2 % 2 ^ 2 ≠ 0 ∨ w.toNat % 2 ^ 2 = 3 ∨
    ((w.toNat % 2 ^ 2 = 1 ∨ w.toNat % 2 ^ 2 = 2) ∧ w.toNat / 2 ^ 4 % 2 ^ 8 ≠ 0)

/-- The corrector with the weight tests of steps 4 and 5 relaxed to `≤ 3` and `≤ 2` (44_golay_decoder.md R173 (b)). -/
def correctRelaxed (P : Matrix2 12 12) (s : BV12) : Option (CorrectorStep × BV24) :=
  match correctStep2 s with
  | some r => some r
  | none =>
    match correctStep3 P s with
    | some r => some r
    | none =>
      if weight (vecMat s P) ≤ 3 then some (.s4, 0#12 ++ vecMat s P)
      else (List.finRange 12).findSome? fun i =>
        if weight (vecMat s P ^^^ P[i]) ≤ 2 then some (.s5 i, unitVector i ++ (vecMat s P ^^^ P[i])) else none

/-! ## The invariant -/

/-- What holds of the result registers and buffers of a core whose input buffer has `nMax` bytes. -/
structure Results.Inv (nMax : Nat) (r : Results) : Prop where
  /-- OUT_BUF is in its canonical form. -/
  outBuf_wf : r.outBuf.wf
  /-- UMAP is in its canonical form. -/
  umap_wf : r.umap.wf
  /-- OUT_BUF has `3·N_MAX` bytes (20_memory.md R52). -/
  outBuf_bound : ∀ c ∈ r.outBuf, c.1 < 3 * nMax
  /-- UMAP has `ceil(floor(N_MAX/3)/8)` bytes (20_memory.md R50). -/
  umap_bound : ∀ c ∈ r.umap, c.1 < (nMax / 3 + 7) / 8
  /-- SCHEME is 0 while CFG_VALID = 0 (10_state.md R28). -/
  scheme_unconfigured : r.cfgValid = false → r.scheme = .passThrough
  /-- UNC is 1 exactly when UNCORR_CNT is not 0 (10_state.md R30). -/
  unc_iff : r.unc = true ↔ r.uncorrCnt ≠ 0
  /-- A failed command leaves no output and no counts (60_exceptions.md R189). -/
  failed : r.err ≠ .ok → r.outLen = 0 ∧ r.nblk = 0 ∧ r.uncorrCnt = 0
  /-- Every byte of the last command's output holds a value (20_memory.md R52). -/
  output_held : ∀ a < r.outLen.toNat, r.outBuf.holds a
  /-- No more words are uncorrectable than there are words (10_state.md R34, R35). -/
  uncorr_le : r.uncorrCnt.toNat ≤ r.nblk.toNat
  /-- Where words are uncorrectable, the map of them holds its values (20_memory.md R55). -/
  map_held : r.unc = true → ∀ a < (r.nblk.toNat + 7) / 8, r.umap.holds a

/-- The invariant of the machine. -/
structure State.Inv (s : State) : Prop where
  /-- The parameters are legal (00_scope.md section 5). -/
  params_legal : s.params.legal = true
  /-- IN_BUF is in its canonical form. -/
  inBuf_wf : s.inBuf.wf
  /-- IN_BUF has `N_MAX` bytes (20_memory.md R51). -/
  inBuf_bound : ∀ c ∈ s.inBuf, c.1 < s.params.nMax
  /-- What the last completed command left. -/
  results : s.res.Inv s.params.nMax
  /-- What a command in flight will leave, and that it has time left. -/
  flight : ∀ f, s.inFlight = some f → 1 ≤ f.remaining ∧ f.commit.Inv s.params.nMax
  /-- The model faults are a set (10_state.md R41). -/
  faults_nodup : s.modelFaults.Nodup
  /-- The host's variables are in their canonical form. -/
  vars_wf : (s.driver.vars.map Prod.fst).Pairwise (· < ·) ∧ ∀ v ∈ s.driver.vars, v.2 ≠ 0

end Sys2Proof.Machine
end

