-- ==== Sys2Proof/Certificates/Slice0/Obligations.lean ====
section
/-! DEFINITION. The statements about the machine, for the provers. `basis` and the quoted sentences stand in
OBLIGATIONS.json; each docstring names the rules of spec/ it comes from, and the log entry where it rests on a choice of
the model. Where a statement runs through `State.launch` or `State.tick`, what a duration is counted in is the model's
choice (log 2); where it runs through `State.byteAt`, `State.bitAt` or `State.blockAt`, a byte that holds no value is the
free value of its cell (log 3). -/

open Sys2Proof Sys2Proof.Machine

/-! ## Encoding -/

/-- R76, R79: under every configuration the decoder gives an instruction for exactly the word the encoder gives that
instruction, where the configuration selects its row. -/
def Obligations.DecodeExactlyInvertsEncode : Prop :=
  ∀ (cfgValid : Bool) (scheme : Scheme) (w : Word) (i : Instr),
    decode cfgValid scheme w = .ok i ↔ i.wellFormedIn cfgValid scheme = true ∧ w = encode i

/-- R80: the words rejected as illegal are those of (a) to (d) and no other. -/
def Obligations.WordRejectedAsIllegalExactly : Prop :=
  ∀ (cfgValid : Bool) (scheme : Scheme) (w : Word),
    (∃ form, decode cfgValid scheme w = .error (.illegal form)) ↔ IllegalWord w

/-- R79, L2.1: words of the spec's tables decode as the tables say. -/
def Obligations.WordsOfTheTableDecode : Prop :=
  decode false .passThrough 0x00000020#32 = .ok (.cfg 2) ∧
  decode true .golay24 0x00000FF0#32 = .ok (.cfg 255) ∧
  decode true .passThrough 0x00000001#32 = .ok .noneEnc ∧ decode true .passThrough 0x00000002#32 = .ok .noneDec ∧
  decode true .repetition3 0x00000001#32 = .ok .rep3Enc ∧ decode true .repetition3 0x00000002#32 = .ok .rep3Dec ∧
  decode true .golay24 0x00000001#32 = .ok .golayEnc ∧ decode true .golay24 0x00000002#32 = .ok .golayDec ∧
  decode false .passThrough 0x00000001#32 = .error .notConfigured ∧
  decode true .golay24 0x00001020#32 = .error (.illegal .rsv1) ∧
  decode true .golay24 0x00000024#32 = .error (.illegal .rsv0) ∧
  decode true .golay24 0x00000003#32 = .error (.illegal .opcReserved) ∧
  decode true .golay24 0x00000012#32 = .error (.illegal .selOnEncDec)

/-! ## The step and the life of a command -/

/-- R120, R125: an idle core runs the instruction the decoder reads from the word the host writes to CMD: the step is
`exec` of it on the accepting machine, put in flight, with the host at its next line. (Log 2.) -/
def Obligations.StepRunsDecodedCommand : Prop :=
  ∀ (s : State) (w : Word) (i : Instr), s.params.legal = true → s.busy = false →
    s.driver.current = some (.wrreg 0x00 w) → decode s.res.cfgValid s.res.scheme w = .ok i →
    step s = mapNext s.advance.accept.launch (exec i s.advance.accept)

/-- R185: a word illegal by R80 completes with ILLEGAL_CMD by the error commit, with CFG_VALID and SCHEME unchanged. (Log 2.) -/
def Obligations.IllegalWordCompletesWithIllegalCmd : Prop :=
  ∀ (s : State) (w : Word), s.params.legal = true → s.busy = false → s.driver.current = some (.wrreg 0x00 w) →
    IllegalWord w →
    step s = .next (s.advance.accept.launch { s.advance.accept with res := s.res.failedWith .illegalCmd })

/-- R184: ENC or DEC while CFG_VALID = 0 completes with NOT_CONFIGURED by the error commit. (Log 2.) -/
def Obligations.UnconfiguredEncDecCompletesWithNotConfigured : Prop :=
  ∀ (s : State) (w : Word), s.params.legal = true → s.busy = false → s.driver.current = some (.wrreg 0x00 w) →
    (w = 0x00000001#32 ∨ w = 0x00000002#32) → s.res.cfgValid = false →
    step s = .next (s.advance.accept.launch { s.advance.accept with res := s.res.failedWith .notConfigured })

/-- R188: the code an accepted word reports, in the order of its checks. Said with `T_OP = 0`, where the code is visible
at once; `StepRunsDecodedCommand` and `CommandCompletesAfterItsDuration` carry it to any duration. -/
def Obligations.StatusCodePriority : Prop :=
  ∀ (s : State) (w : Word), s.opTimes = [] →
    ∃ t, s.submit w = .next t ∧ t.res.err =
      if IllegalWord w then .illegalCmd
      else if w.toNat % 4 = 0 then (if w.toNat / 16 % 256 ≤ 2 then .ok else .configError)
      else if s.res.cfgValid = false then .notConfigured
      else if s.params.nMax < s.inLen.toNat then .lengthError
      else if s.res.scheme = .golay24 ∧ s.inLen.toNat % 3 ≠ 0 then .alignError
      else if s.res.scheme = .repetition3 ∧ w.toNat % 4 = 2 ∧ s.inLen.toNat % 3 ≠ 0 then .malformed
      else .ok

/-- R122, R211: a command of duration `d` (log 2: counted in host lines), after which the host has nothing to do, keeps
BUSY at 1 and its results invisible for `d` lines, and then leaves exactly the state it leaves with `T_OP = 0`. -/
def Obligations.CommandCompletesAfterItsDuration : Prop :=
  ∀ (s : State) (w : Word) (d : Nat) (later : List Nat), s.params.legal = true → s.busy = false →
    s.opTimes = d :: later → s.driver.current = some (.wrreg 0x00 w) → s.driver.script[s.driver.pos + 1]? = none →
    ∃ t, step { s with opTimes := 0 :: later } = .next t ∧ t.busy = false ∧
      Host.Core.run core (d + 1) s = .next t ∧
      ∀ k, 1 ≤ k → k ≤ d → ∃ u, Host.Core.run core k s = .next u ∧ u.busy = true ∧ u.res = s.res

/-- R211, R91: a CMD write followed by WAIT ends in the same state under any duration, but for the model's own count of any
values read (log 2, log 5). -/
def Obligations.CommandThenWaitSameUnderAnyDuration : Prop :=
  ∀ (s : State) (w : Word) (d N : Nat) (later : List Nat), s.Inv → s.busy = false →
    s.driver.current = some (.wrreg 0x00 w) →
    s.driver.script[s.driver.pos + 1]? = some (.label (.wait N)) →
    s.driver.script[s.driver.pos + 2]? = some (.rdreg 0x04 Var.scratch) →
    s.driver.script[s.driver.pos + 3]? = some (.brbit Var.scratch 0 (.wait N)) →
    findLabel (.wait N) s.driver.script = some (s.driver.pos + 1) →
    ∃ k t, Host.Core.run core k { s with opTimes := d :: later } = .next t ∧ t.busy = false ∧
      t.driver.pos = s.driver.pos + 4 ∧
      Host.Core.run core 4 { s with opTimes := 0 :: later } = .next { t with anyCount := s.anyCount }

/-! ## The host port -/

/-- R207, R208, R209: a write to CMD, to IN_LEN or to an IN_BUF byte while BUSY = 1 is discarded and leaves no trace except
STATUS.HZ; the time of the access passes. (Log 2.) -/
def Obligations.WritesWhileBusyOnlySetHazard : Prop :=
  ∀ (s : State) (line : HostLine), s.params.legal = true → s.busy = true → s.driver.current = some line →
    ((∃ w, line = .wrreg 0x00 w) ∨ (∃ w, line = .wrreg 0x08 w) ∨ (∃ a x, line = .wrin a x ∧ a < s.params.nMax)) →
    step s = .next { s with hz := true, driver := { s.driver with pos := s.driver.pos + 1 } }.tick

/-- R31, R212: a host that does not write CMD, IN_LEN or IN_BUF while BUSY = 1 never has STATUS.HZ set. -/
def Obligations.WaitingHostRaisesNoHazard : Prop :=
  ∀ (s t : State), (∀ line, s.driver.current = some line → s.busy = true → line.waitsToWrite = true) →
    step s = .next t → t.hz = true → s.hz = true

/-- R210: what register reads, and byte reads of all three buffers, give while BUSY = 1, below and beyond the capacity. The
any-value locations give the free values of log 5, an IN_BUF byte without value that of log 3; both are the model's choice. -/
def Obligations.ReadsWhileBusy : Prop :=
  ∀ (s : State), s.busy = true →
    ((s.readReg 0x04).1.getLsbD 0 = true ∧ (s.readReg 0x04).1.getLsbD 9 = s.hz ∧
      (∀ b, 1 ≤ b → b ≤ 8 → (s.readReg 0x04).1.getLsbD b = (Config.busyWord s.anyCount).getLsbD b) ∧
      ∀ b, 10 ≤ b → (s.readReg 0x04).1.getLsbD b = false) ∧
    (∀ off, off = 0x0C ∨ off = 0x10 ∨ off = 0x14 → (s.readReg off).1 = Config.busyWord s.anyCount) ∧
    s.readReg 0x08 = (s.inLen, s) ∧
    (∀ off, off = 0x00 ∨ 0x18 ≤ off ∨ off % 4 ≠ 0 → s.readReg off = (0, s)) ∧
    (∀ sp a, s.capacity sp ≤ a → s.readByte sp a = (0, s)) ∧
    (∀ a b, a < s.params.nMax → s.inBuf.read a = some b → s.readByte .inBuf a = (b, s)) ∧
    (∀ a, a < s.params.nMax → s.inBuf.read a = none →
      (s.readByte .inBuf a).1 = Config.cellByte s.epoch .inBuf a ∧
      ∀ f, f ∈ (s.readByte .inBuf a).2.modelFaults ↔ f ∈ s.modelFaults ∨ f = ⟨.inBuf, a⟩) ∧
    (∀ sp a, sp = .outBuf ∨ sp = .umap → a < s.capacity sp →
      (s.readByte sp a).1 = Config.busyByte s.anyCount ∧
      ∀ f, f ∈ (s.readByte sp a).2.modelFaults ↔
        f ∈ s.modelFaults ∨ (f = ⟨sp, a⟩ ∧ (s.mem sp).read a = none)) ∧
    ∀ sp a v, s.params.legal = true → s.driver.current = some (readLine sp a v) →
      ∃ t, step s = .next t ∧ t.varValue v = (s.readByte sp a).1.setWidth 32 ∧
        ∀ u, u ≠ v → t.varValue u = s.varValue u

/-- R23: an offset that is no register reads 0 and ignores writes, and a write to a read-only register is ignored. (Log 2.) -/
def Obligations.UnmappedAndReadOnlyRegisters : Prop :=
  (∀ (s : State) (off : Nat), 0x18 ≤ off ∨ off % 4 ≠ 0 → s.readReg off = (0, s)) ∧
  (∀ (s : State) (off : Nat) (w : Word), s.params.legal = true → off ≠ 0x00 → off ≠ 0x08 →
    s.driver.current = some (.wrreg off w) →
    step s = .next { s with driver := { s.driver with pos := s.driver.pos + 1 } }.tick)

/-- R25, R28, R180: the fields of STATUS while BUSY = 0; reading it changes nothing. -/
def Obligations.StatusFieldsWhileIdle : Prop :=
  ∀ (s : State), s.busy = false →
    (s.readReg 0x04).2 = s ∧
    (s.readReg 0x04).1.getLsbD 0 = false ∧ (s.readReg 0x04).1.getLsbD 1 = s.res.cfgValid ∧
    (s.readReg 0x04).1.toNat / 4 % 4 =
      (match s.res.scheme with | .passThrough => 0 | .repetition3 => 1 | .golay24 => 2) ∧
    (s.readReg 0x04).1.toNat / 16 % 16 =
      (match s.res.err with
        | .ok => 0 | .configError => 1 | .alignError => 2 | .malformed => 3 | .notConfigured => 4
        | .illegalCmd => 5 | .lengthError => 6) ∧
    (s.readReg 0x04).1.getLsbD 8 = s.res.unc ∧ (s.readReg 0x04).1.getLsbD 9 = s.hz ∧
    (s.readReg 0x04).1.toNat / 2 ^ 10 = 0

/-- R32, R33, R34, R35: IN_LEN takes any word while BUSY = 0, and the length and count registers read what they hold. -/
def Obligations.LengthAndCountRegisters : Prop :=
  (∀ (s : State) (w : Word), s.params.legal = true → s.busy = false → s.driver.current = some (.wrreg 0x08 w) →
    step s = .next { s with inLen := w, driver := { s.driver with pos := s.driver.pos + 1 } }) ∧
  (∀ (s : State), s.readReg 0x08 = (s.inLen, s)) ∧
  (∀ (s : State), s.busy = false → s.readReg 0x0C = (s.res.outLen, s) ∧ s.readReg 0x10 = (s.res.nblk, s) ∧
    s.readReg 0x14 = (s.res.uncorrCnt, s))

/-- R51, R90, R91: a host write stores an IN_BUF byte while BUSY = 0, and is ignored at or beyond the capacity. The byte is
`imm8`, `v[7:0]`, or `v[7:0] ⊕ mask`. That a write at or beyond the capacity sets no HZ while BUSY = 1 is the model's reading
(log 6); only the time of the access passes then (log 2). -/
def Obligations.InBufWriteStoresByte : Prop :=
  (∀ (s : State) (a : Nat) (x : ByteOperand), s.params.legal = true → s.busy = false →
    s.driver.current = some (.wrin a x) →
    ∃ t, step s = .next t ∧
      t = { s with inBuf := t.inBuf, driver := { s.driver with pos := s.driver.pos + 1 } } ∧
      (a < s.params.nMax → t.inBuf.read a = some (s.byteOperand x) ∧ ∀ c, c ≠ a → t.inBuf.read c = s.inBuf.read c) ∧
      (s.params.nMax ≤ a → t.inBuf = s.inBuf)) ∧
  (∀ (s : State) (b mask : Byte) (v : Var), s.byteOperand (.imm b) = b ∧
    (s.byteOperand (.var v)).toNat = (s.varValue v).toNat % 2 ^ 8 ∧
    s.byteOperand (.varXor v mask) = s.byteOperand (.var v) ^^^ mask) ∧
  ∀ (s : State) (a : Nat) (x : ByteOperand), s.params.legal = true → s.busy = true →
    s.driver.current = some (.wrin a x) → s.params.nMax ≤ a →
    step s = .next { s with driver := { s.driver with pos := s.driver.pos + 1 } }.tick

/-- R90: RDREG puts what the register read gives into its variable, idle or busy; no other variable changes, and the host goes on at
its next line. -/
def Obligations.RegisterReadReachesItsVariable : Prop :=
  ∀ (s : State) (off : Nat) (v : Var), s.params.legal = true → s.driver.current = some (.rdreg off v) →
    ∃ t, step s = .next t ∧ t.varValue v = (s.readReg off).1 ∧ (∀ u, u ≠ v → t.varValue u = s.varValue u) ∧
      t.driver = { s.driver with pos := s.driver.pos + 1, vars := t.driver.vars }

/-- R51, R52, R55, R59: a host read of a buffer byte while BUSY = 0: the stored byte; a model fault where it holds no
value, the run going on with the free value of that cell (log 3); 0 at or beyond the capacity. -/
def Obligations.BufferReadWhileIdle : Prop :=
  ∀ (s : State) (sp : Space) (a : Nat) (v : Var), s.params.legal = true → s.busy = false →
    s.driver.current = some (readLine sp a v) →
    ∃ t, step s = .next t ∧
      t = { s with
        driver := { s.driver with pos := s.driver.pos + 1, vars := t.driver.vars }, modelFaults := t.modelFaults } ∧
      (∀ u, u ≠ v → t.varValue u = s.varValue u) ∧
      (∀ b, a < s.capacity sp → (s.mem sp).read a = some b →
        t.varValue v = b.setWidth 32 ∧ t.modelFaults = s.modelFaults) ∧
      (a < s.capacity sp → (s.mem sp).read a = none →
        t.varValue v = (Config.cellByte s.epoch sp a).setWidth 32 ∧
        ∀ f, f ∈ t.modelFaults ↔ f ∈ s.modelFaults ∨ f = ⟨sp, a⟩) ∧
      (s.capacity sp ≤ a → t.varValue v = 0 ∧ t.modelFaults = s.modelFaults)

/-- R90, R216: the host-local lines. BRBIT goes to its label's line where the bit is 1 and to the next line where it is 0; a
label's line goes on; HALT ends the script. Only time passes for the core (log 2). The model's choices (log 7): a bit number
of 32 or more is 0, a label's line is a step of its own, and a host that is halted or past the end of its script idles. -/
def Obligations.HostLocalLines : Prop :=
  ∀ (s : State), s.params.legal = true →
    (∀ v b l p, s.driver.current = some (.brbit v b l) → findLabel l s.driver.script = some p →
      step s = .next { s with driver := { s.driver with
        pos := if (s.varValue v).toNat / 2 ^ b % 2 = 1 then p else s.driver.pos + 1 } }.tick) ∧
    (∀ l, s.driver.current = some (.label l) →
      step s = .next { s with driver := { s.driver with pos := s.driver.pos + 1 } }.tick) ∧
    (s.driver.current = some .halt → step s = .next { s with driver := { s.driver with halted := true } }.tick) ∧
    (s.driver.current = none → step s = .next s.tick)

/-- R58: no read has a side effect on the core: only the host, the model faults and the model's own count (log 5) may differ
from the state that the passing of time alone gives. -/
def Obligations.ReadsHaveNoSideEffect : Prop :=
  ∀ (s t : State),
    ((∃ off v, s.driver.current = some (.rdreg off v)) ∨ ∃ sp a v, s.driver.current = some (readLine sp a v)) →
    step s = .next t →
    { t with driver := s.driver, modelFaults := s.modelFaults, anyCount := s.anyCount } = s.tick

/-! ## Reset -/

/-- R201, R202: the state after reset: STATUS reads 0, every register is 0, no buffer byte holds a value. -/
def Obligations.ResetValues : Prop :=
  State.reset.readReg 0x04 = (0x00000000#32, State.reset) ∧ State.reset.busy = false ∧ State.reset.inLen = 0 ∧
  State.reset.res.outLen = 0 ∧ State.reset.res.nblk = 0 ∧ State.reset.res.uncorrCnt = 0 ∧
  State.reset.res.cfgValid = false ∧ State.reset.res.scheme = .passThrough ∧ State.reset.res.err = .ok ∧
  State.reset.res.unc = false ∧ State.reset.hz = false ∧ ∀ sp a, (State.reset.mem sp).read a = none

/-- R200, R203, R206, R41: RESET from any state, busy or not, gives the registers and buffers of `State.reset` and no
command in flight; the parameters and the model faults stay. The host goes on at its next line, its variables and the
durations to come are kept, and the cells of the buffers may hold anything new (log 3, log 11). -/
def Obligations.ResetFromAnyState : Prop :=
  ∀ (s : State), s.params.legal = true → s.driver.current = some .reset →
    step s = .next { State.reset with
      params := s.params, modelFaults := s.modelFaults, opTimes := s.opTimes, anyCount := s.anyCount,
      epoch := s.epoch + 1, driver := { s.driver with pos := s.driver.pos + 1 } }

/-! ## The instructions -/

/-- R123: CFG with `sel` 0, 1 or 2 configures that scheme and clears the results; with `sel ≥ 3` it leaves no codec instance
and reports CONFIG_ERROR. It writes no buffer. -/
def Obligations.CfgConfiguresOrReportsConfigError : Prop :=
  ∀ (sel : BitVec 8) (s : State),
    (sel.toNat ≤ 2 → ∀ scheme : Scheme,
      sel.toNat = (match scheme with | .passThrough => 0 | .repetition3 => 1 | .golay24 => 2) →
      exec (.cfg sel) s = .next { s with res :=
        { cfgValid := true, scheme := scheme, err := .ok, unc := false, outLen := 0, nblk := 0, uncorrCnt := 0,
          outBuf := s.res.outBuf, umap := s.res.umap } }) ∧
    (3 ≤ sel.toNat →
      exec (.cfg sel) s = .next { s with res :=
        { cfgValid := false, scheme := .passThrough, err := .configError, unc := false, outLen := 0, nblk := 0,
          uncorrCnt := 0, outBuf := s.res.outBuf, umap := s.res.umap } })

/-- R127, R128: NONE.ENC and NONE.DEC copy the input to the output. A byte without value is the free value of its cell
(log 3). -/
def Obligations.NoneSchemeCopiesInput : Prop :=
  ∀ (i : Instr) (s : State), i = .noneEnc ∨ i = .noneDec → s.configured →
    ∃ t, exec i s = .next t ∧ OnlyResultsChange s t ∧ ConfigKept s t ∧ t.res.umap = s.res.umap ∧
      t.res.err = .ok ∧ t.res.unc = false ∧ t.res.outLen = s.inLen ∧ t.res.nblk = 0 ∧ t.res.uncorrCnt = 0 ∧
      (∀ a < s.inLen.toNat, t.res.outBuf.read a = some (s.byteAt .inBuf a)) ∧ OutBufKeptFrom s.inLen.toNat s t

/-- R140, R141: REP3.ENC puts every input bit at three consecutive output bits. (Log 3.) -/
def Obligations.Rep3EncTriplesEveryBit : Prop :=
  ∀ (s : State), s.params.legal = true → s.configured →
    ∃ t, exec .rep3Enc s = .next t ∧ OnlyResultsChange s t ∧ ConfigKept s t ∧ t.res.umap = s.res.umap ∧
      t.res.err = .ok ∧ t.res.unc = false ∧ t.res.uncorrCnt = 0 ∧
      t.res.outLen.toNat = 3 * s.inLen.toNat ∧ t.res.nblk.toNat = 8 * s.inLen.toNat ∧
      (∀ a < 3 * s.inLen.toNat, t.res.outBuf.holds a) ∧
      (∀ k < 8 * s.inLen.toNat, ∀ q < 3, t.bitAt .outBuf (3 * k + q) = s.bitAt .inBuf k) ∧
      OutBufKeptFrom (3 * s.inLen.toNat) s t

/-- R142, R143: REP3.DEC votes on every triplet of the input where `n mod 3 = 0`, and reports MALFORMED otherwise. (Log 3.) -/
def Obligations.Rep3DecVotesOrReportsMalformed : Prop :=
  ∀ (s : State), s.params.legal = true → s.configured →
    (s.inLen.toNat % 3 = 0 →
      ∃ t, exec .rep3Dec s = .next t ∧ OnlyResultsChange s t ∧ ConfigKept s t ∧ t.res.umap = s.res.umap ∧
        t.res.err = .ok ∧ t.res.unc = false ∧ t.res.uncorrCnt = 0 ∧
        t.res.outLen.toNat = s.inLen.toNat / 3 ∧ t.res.nblk.toNat = 8 * s.inLen.toNat / 3 ∧
        (∀ a < s.inLen.toNat / 3, t.res.outBuf.holds a) ∧
        (∀ k < 8 * s.inLen.toNat / 3, t.bitAt .outBuf k =
          maj3 (s.bitAt .inBuf (3 * k)) (s.bitAt .inBuf (3 * k + 1)) (s.bitAt .inBuf (3 * k + 2))) ∧
        OutBufKeptFrom (s.inLen.toNat / 3) s t) ∧
    (s.inLen.toNat % 3 ≠ 0 → exec .rep3Dec s = .next { s with res := s.res.failedWith .malformed })

/-- R150, R151: GOLAY.ENC turns every 12-bit chunk of the input into its codeword where `n mod 3 = 0`, and reports
ALIGN_ERROR otherwise. (Log 3.) -/
def Obligations.GolayEncEncodesEveryChunk : Prop :=
  ∀ (s : State), s.params.legal = true → s.configured →
    (s.inLen.toNat % 3 = 0 →
      ∃ t, exec .golayEnc s = .next t ∧ OnlyResultsChange s t ∧ ConfigKept s t ∧ t.res.umap = s.res.umap ∧
        t.res.err = .ok ∧ t.res.unc = false ∧ t.res.uncorrCnt = 0 ∧
        t.res.outLen.toNat = 2 * s.inLen.toNat ∧ t.res.nblk.toNat = 2 * s.inLen.toNat / 3 ∧
        (∀ a < 2 * s.inLen.toNat, t.res.outBuf.holds a) ∧
        (∀ k < 2 * s.inLen.toNat / 3,
          t.blockAt .outBuf 24 k = golayEncWord s.params.pMatrix (s.blockAt .inBuf 12 k)) ∧
        OutBufKeptFrom (2 * s.inLen.toNat) s t) ∧
    (s.inLen.toNat % 3 ≠ 0 → exec .golayEnc s = .next { s with res := s.res.failedWith .alignError })

/-- R160, R169, R170, R55: GOLAY.DEC decodes every received word on its own where `n mod 3 = 0`: its data block or `0^12`, the
padding 0, the map of uncorrectable words with its padding, their count and the flag. It reports ALIGN_ERROR otherwise. (Log 3.) -/
def Obligations.GolayDecDecodesEveryWord : Prop :=
  ∀ (s : State), s.params.legal = true → s.configured →
    (s.inLen.toNat % 3 = 0 →
      ∃ t, exec .golayDec s = .next t ∧ OnlyResultsChange s t ∧ ConfigKept s t ∧ t.res.err = .ok ∧
        t.res.outLen.toNat = (s.inLen.toNat + 1) / 2 ∧ t.res.nblk.toNat = s.inLen.toNat / 3 ∧
        t.res.uncorrCnt.toNat = (List.range (s.inLen.toNat / 3)).countP (fun k =>
          (golayDecWord s.params.pMatrix s.params.pCorrLiteral (s.blockAt .inBuf 24 k)).isNone) ∧
        (t.res.unc = true ↔ t.res.uncorrCnt ≠ 0) ∧
        (∀ a < (s.inLen.toNat + 1) / 2, t.res.outBuf.holds a) ∧
        (∀ k < s.inLen.toNat / 3, t.blockAt .outBuf 12 k =
          (golayDecWord s.params.pMatrix s.params.pCorrLiteral (s.blockAt .inBuf 24 k)).getD 0) ∧
        (∀ p, 4 * s.inLen.toNat ≤ p → p < 8 * ((s.inLen.toNat + 1) / 2) → t.bitAt .outBuf p = false) ∧
        (∀ a < (s.inLen.toNat / 3 + 7) / 8, t.res.umap.holds a) ∧
        (∀ k < s.inLen.toNat / 3, t.bitAt .umap k =
          (golayDecWord s.params.pMatrix s.params.pCorrLiteral (s.blockAt .inBuf 24 k)).isNone) ∧
        (∀ p, s.inLen.toNat / 3 ≤ p → p < 8 * ((s.inLen.toNat / 3 + 7) / 8) → t.bitAt .umap p = false) ∧
        OutBufKeptFrom ((s.inLen.toNat + 1) / 2) s t ∧ UmapKeptFrom ((s.inLen.toNat / 3 + 7) / 8) s t) ∧
    (s.inLen.toNat % 3 ≠ 0 → exec .golayDec s = .next { s with res := s.res.failedWith .alignError })

/-- R186: ENC or DEC while CFG_VALID = 1 and `IN_LEN > N_MAX` reports LENGTH_ERROR by the error commit. -/
def Obligations.TooLongInputReportsLengthError : Prop :=
  ∀ (i : Instr) (s : State), (∀ sel, i ≠ .cfg sel) → s.res.cfgValid = true → s.params.nMax < s.inLen.toNat →
    exec i s = .next { s with res := s.res.failedWith .lengthError }

/-! ## Whole-machine rules -/

/-- R39, R51, R32: every instruction completes on every state, and changes nothing but the result registers and buffers and the
set of model faults; IN_BUF and IN_LEN above all. -/
def Obligations.EveryInstructionCompletesAndKeepsTheRest : Prop :=
  ∀ (i : Instr) (s : State), ∃ t, exec i s = .next t ∧ OnlyResultsChange s t

/-- R189: a command that fails writes its code, clears the result fields and writes no buffer byte; CFG_VALID and SCHEME change only
with CONFIG_ERROR, to 0. -/
def Obligations.FailedCommandLeavesOnlyItsCode : Prop :=
  ∀ (i : Instr) (s t : State), exec i s = .next t → t.res.err ≠ .ok →
    t = { s with res := { s.res.failedWith t.res.err with cfgValid := t.res.cfgValid, scheme := t.res.scheme } } ∧
    (t.res.err ≠ .configError → ConfigKept s t) ∧
    (t.res.err = .configError → t.res.cfgValid = false ∧ t.res.scheme = .passThrough)

/-- R52, R55, R68: a command leaves every OUT_BUF byte at or beyond its OUT_LEN as it was, and UMAP too, but GOLAY.DEC, which leaves every
UMAP byte as it was at or beyond `ceil(NBLK/8)`. -/
def Obligations.CommandWritesOnlyItsOutput : Prop :=
  ∀ (i : Instr) (s t : State), s.params.legal = true → exec i s = .next t →
    OutBufKeptFrom t.res.outLen.toNat s t ∧ (i ≠ .golayDec → t.res.umap = s.res.umap) ∧
    UmapKeptFrom ((t.res.nblk.toNat + 7) / 8) s t

/-- R27, R28: no command but CFG changes CFG_VALID or SCHEME. -/
def Obligations.OnlyCfgChangesTheConfiguration : Prop :=
  ∀ (i : Instr) (s t : State), (∀ sel, i ≠ .cfg sel) → exec i s = .next t → ConfigKept s t

/-- R59, R124, R213: a command records exactly the input bytes without value that it reads, and it reads them only after every
check has passed; CFG reads none. -/
def Obligations.CommandRecordsExactlyMissingInput : Prop :=
  ∀ (i : Instr) (s t : State), exec i s = .next t → ∀ f : ModelFault,
    f ∈ t.modelFaults ↔ f ∈ s.modelFaults ∨
      ((∀ sel, i ≠ .cfg sel) ∧ t.res.err = .ok ∧ f.space = .inBuf ∧ f.addr < s.inLen.toNat ∧
        s.inBuf.read f.addr = none)

/-- R39: what a command computes depends on the parameters, CFG_VALID, IN_LEN and IN_BUF alone, not on what earlier commands left (the
cells of bytes without value are those of the same epoch, log 3). -/
def Obligations.ResultsIndependentOfEarlierCommands : Prop :=
  ∀ (i : Instr) (s s' t t' : State), s.params.legal = true →
    s.params = s'.params → s.res.cfgValid = s'.res.cfgValid → s.inLen = s'.inLen → s.inBuf = s'.inBuf →
    s.epoch = s'.epoch → exec i s = .next t → exec i s' = .next t' →
    t.res.err = t'.res.err ∧ t.res.unc = t'.res.unc ∧ t.res.outLen = t'.res.outLen ∧ t.res.nblk = t'.res.nblk ∧
    t.res.uncorrCnt = t'.res.uncorrCnt ∧
    (∀ a < t.res.outLen.toNat, t.res.outBuf.read a = t'.res.outBuf.read a) ∧
    (i = .golayDec → ∀ a < (t.res.nblk.toNat + 7) / 8, t.res.umap.read a = t'.res.umap.read a)

/-- R41: a model fault is never cleared, by a reset neither. -/
def Obligations.ModelFaultsAreNeverCleared : Prop :=
  ∀ (s t : State), step s = .next t → ∀ f ∈ s.modelFaults, f ∈ t.modelFaults

/-- R36, R206: no command, no host access and no reset changes the ROM, nor any other parameter. -/
def Obligations.ParametersNeverChange : Prop := ∀ (s t : State), step s = .next t → t.params = s.params

/-- R90, R82: with legal parameters and a script whose branches go to its own labels, every step answers a next state: nothing
stops the machine. -/
def Obligations.StepAnswersNext : Prop :=
  ∀ (s : State), s.params.legal = true → s.driver.labelled = true → ∃ t, step s = .next t

/-- The invariant of Safety.lean holds after reset. -/
def Obligations.ResetMeetsTheInvariant : Prop := State.reset.Inv

/-- R28, R30, R50, R52, R189, R41: every step keeps the invariant of Safety.lean, from every state that meets it. -/
def Obligations.StepKeepsTheInvariant : Prop := ∀ (s t : State), s.Inv → step s = .next t → t.Inv

/-- R52, R205: where the invariant holds, reading the output of the last command, once it is complete, records no model fault and
gives the byte stored. -/
def Obligations.OutputIsReadableAfterCompletion : Prop :=
  ∀ (s : State) (a : Nat), s.Inv → s.busy = false → a < s.res.outLen.toNat →
    ∃ b, s.res.outBuf.read a = some b ∧ s.readByte .outBuf a = (b, s)

/-! ## The GF(2) datapath -/

/-- R103: the vector-matrix product by its formula, and its linearity. -/
def Obligations.VecMatByFormulaAndLinear : Prop :=
  ∀ (m q : Nat) (M : Matrix2 m q),
    (∀ (v : BitVec m) (j : Nat), j < q → bit (vecMat v M) j =
      (List.finRange m).foldl (fun (acc : Bool) (l : Fin m) => acc ^^ (bit v l && bit M[l] j)) false) ∧
    ∀ v w : BitVec m, vecMat (v ^^^ w) M = vecMat v M ^^^ vecMat w M

/-- R105, R106: the entries of `G` and `H^T`. -/
def Obligations.MatricesByEntry : Prop :=
  ∀ (P : Matrix2 12 12),
    (∀ (l : Fin 12) (j : Nat), (j < 12 → bit (genMatrix P)[l] j = bit P[l] j) ∧
      (12 ≤ j → j < 24 → bit (genMatrix P)[l] j = decide (j - 12 = l.val))) ∧
    (∀ (i : Fin 24) (j : Nat), j < 12 → bit (checkMatrix P)[i] j =
      if h : i.val < 12 then decide (i.val = j) else bit (P[i.val - 12]'(by omega)) j)

/-- R109: `golay_enc_word(u) = (u·P) ++ u`, parity first, then the data unchanged, and the rule's example. -/
def Obligations.WordEncoderIsSystematic : Prop :=
  (∀ (P : Matrix2 12 12) (u : BV12), golayEncWord P u = vecMat u P ++ u) ∧
  golayEncWord Config.defaultP 0b000000000001#12 = 0xFFE001#24

/-- R110: `syndrome(r) = r[0..11] ⊕ (r[12..23]·P)`, and the syndrome of a single 1 at index `p`. -/
def Obligations.SyndromeFromTheHalves : Prop :=
  ∀ (P : Matrix2 12 12),
    (∀ r : BV24, syndrome P r = parityHalf r ^^^ vecMat (dataHalf r) P) ∧
    ∀ i : Fin 12, syndrome P (unitVector i ++ 0#12) = unitVector i ∧ syndrome P (0#12 ++ unitVector i) = P[i]

/-- R108, R111: `G·H^T = 0`; codewords have syndrome 0; the syndrome of a received word is that of its error; a word with syndrome
0 is the codeword of its data half. For every `P`. -/
def Obligations.SyndromeLaws : Prop :=
  ∀ (P : Matrix2 12 12),
    (∀ l : Fin 12, vecMat (genMatrix P)[l] (checkMatrix P) = 0) ∧
    (∀ u, syndrome P (golayEncWord P u) = 0) ∧
    (∀ u e, syndrome P (golayEncWord P u ^^^ e) = syndrome P e) ∧
    (∀ r, syndrome P r = 0 ↔ r = golayEncWord P (dataHalf r))

/-- R112: the majority is 1 exactly when at least two of the three bits are 1. -/
def Obligations.MajorityIsAtLeastTwo : Prop :=
  ∀ a b c : Bool, maj3 a b c = true ↔ 2 ≤ a.toNat + b.toNat + c.toNat

/-- R53, R54: unpacking and packing by their formulas, and packing inverts unpacking. -/
def Obligations.PackAndUnpack : Prop :=
  (∀ (B : List Byte) (i t : Nat) (hi : i < B.length), t < 8 →
    (unpack B)[8 * i + t]? = some (B[i].getLsbD (7 - t))) ∧
  (∀ (y : List Bool) (i t : Nat), i < (y.length + 7) / 8 → t < 8 →
    ((pack y)[i]?).map (fun b => b.getLsbD (7 - t)) = some (if h : 8 * i + t < y.length then y[8 * i + t] else false)) ∧
  (∀ y : List Bool, (pack y).length = (y.length + 7) / 8) ∧
  (∀ B : List Byte, (unpack B).length = 8 * B.length ∧ pack (unpack B) = B)

/-- R162 to R167: the corrector's search: step 2, the least `i` of step 3, step 4 on exactly the weights 2 and 3, the least `i` of step
5 on exactly the weight 2, each only where the steps before found nothing, and UNCORRECTABLE otherwise. -/
def Obligations.CorrectorSearchOrder : Prop :=
  ∀ (P : Matrix2 12 12) (s : BV12),
    (weight s ≤ 3 → correct P s = some (.s2, s ++ 0#12)) ∧
    (3 < weight s →
      (∀ i : Fin 12, weight (s ^^^ P[i]) ≤ 2 → (∀ j < i, 2 < weight (s ^^^ P[j])) →
        correct P s = some (.s3 i, (s ^^^ P[i]) ++ unitVector i)) ∧
      ((∀ i : Fin 12, 2 < weight (s ^^^ P[i])) →
        (weight (vecMat s P) = 2 ∨ weight (vecMat s P) = 3 → correct P s = some (.s4, 0#12 ++ vecMat s P)) ∧
        (weight (vecMat s P) ≠ 2 → weight (vecMat s P) ≠ 3 →
          (∀ i : Fin 12, weight (vecMat s P ^^^ P[i]) = 2 → (∀ j < i, weight (vecMat s P ^^^ P[j]) ≠ 2) →
            correct P s = some (.s5 i, unitVector i ++ (vecMat s P ^^^ P[i]))) ∧
          ((∀ i : Fin 12, weight (vecMat s P ^^^ P[i]) ≠ 2) → correct P s = none))))

/-- R168: a correctable word gives `r[12..23] ⊕ e[12..23]`, under `P_CORR_LITERAL = 1` `r[12..23] ⊕ e[0..11]`; an uncorrectable one gives
no block under either value. -/
def Obligations.DataRecoveredWithItsHalfOfThePattern : Prop :=
  ∀ (P : Matrix2 12 12) (r : BV24),
    (∀ tag e, correct P (syndrome P r) = some (tag, e) →
      (∃ d, golayDecWord P false r = some d ∧ ∀ j < 12, bit d j = (bit r (12 + j) ^^ bit e (12 + j))) ∧
      (∃ d, golayDecWord P true r = some d ∧ ∀ j < 12, bit d j = (bit r (12 + j) ^^ bit e j))) ∧
    (correct P (syndrome P r) = none → ∀ literal, golayDecWord P literal r = none)

/-- R171: under INV (R107) every pattern the corrector returns explains the syndrome and has weight at most 3; so the corrected
word is a codeword, and the recovered block is its data half. -/
def Obligations.EveryPatternExplainsItsSyndrome : Prop :=
  ∀ (P : Matrix2 12 12), INV P →
    ∀ s tag e, correct P s = some (tag, e) → syndrome P e = s ∧ weight e ≤ 3 ∧
      ∀ r, syndrome P r = s → r ^^^ e = golayEncWord P (dataHalf (r ^^^ e)) ∧
        golayDecWord P false r = some (dataHalf (r ^^^ e))

/-- R37, R107: the default `P` is symmetric and meets INV and GOLAY, so that every law stated under them holds of it. -/
def Obligations.DefaultMatrixIsGolay : Prop :=
  (∀ i j : Fin 12, bit Config.defaultP[i] j = bit Config.defaultP[j] i) ∧ INV Config.defaultP ∧ GOLAY Config.defaultP

/-- R172: under INV and GOLAY (R107), a codeword with at most three flipped bits is corrected: the corrector finds the error and
the data block comes back. -/
def Obligations.UpToThreeErrorsAreCorrected : Prop :=
  ∀ (P : Matrix2 12 12), INV P → GOLAY P → ∀ (u : BV12) (e : BV24), weight e ≤ 3 →
    (∃ tag, correct P (syndrome P (golayEncWord P u ^^^ e)) = some (tag, e)) ∧
    golayDecWord P false (golayEncWord P u ^^^ e) = some u

/-- R173: under INV and GOLAY (R107), at most one `i` satisfies the test of step 3 or of step 5 for a syndrome that reaches it,
and the corrector with relaxed weight tests in steps 4 and 5 is the same function. -/
def Obligations.TieBreakingIsUnobservable : Prop :=
  ∀ (P : Matrix2 12 12), INV P → GOLAY P →
    (∀ s : BV12, correctStep2 s = none →
      (∀ i j : Fin 12, weight (s ^^^ P[i]) ≤ 2 → weight (s ^^^ P[j]) ≤ 2 → i = j) ∧
      (correctStep3 P s = none → correctStep4 (vecMat s P) = none →
        ∀ i j : Fin 12, weight (vecMat s P ^^^ P[i]) = 2 → weight (vecMat s P ^^^ P[j]) = 2 → i = j)) ∧
    ∀ s : BV12, correctRelaxed P s = correct P s

/-- R174: a codeword with exactly four flipped bits is always uncorrectable, never miscorrected. Said under INV and GOLAY
(R107), which the default `P` of R174 meets (`DefaultMatrixIsGolay`). -/
def Obligations.FourErrorsAreAlwaysUncorrectable : Prop :=
  ∀ (P : Matrix2 12 12), INV P → GOLAY P → ∀ (u : BV12) (e : BV24) (literal : Bool), weight e = 4 →
    golayDecWord P literal (golayEncWord P u ^^^ e) = none

/-- R175: under INV and GOLAY (R107) and `P_CORR_LITERAL = 1`, up to three errors give `u ⊕ e[12..23] ⊕ e[0..11]`, so `u` exactly
when the halves of the error are equal: no error, or one of the twelve pairs `{p, 12 + p}`. A single error always gives a wrong
block; a codeword decodes to its data under both values. -/
def Obligations.LiteralRecoveryOfThreeErrors : Prop :=
  ∀ (P : Matrix2 12 12), INV P → GOLAY P → ∀ u : BV12,
    (∀ e : BV24, weight e ≤ 3 →
      golayDecWord P true (golayEncWord P u ^^^ e) = some (u ^^^ dataHalf e ^^^ parityHalf e) ∧
      (golayDecWord P true (golayEncWord P u ^^^ e) = some u ↔ parityHalf e = dataHalf e) ∧
      (parityHalf e = dataHalf e ↔ e = 0 ∨ ∃ i : Fin 12, e = unitVector i ++ unitVector i)) ∧
    (∀ e : BV24, weight e = 1 → golayDecWord P true (golayEncWord P u ^^^ e) ≠ some u) ∧
    ∀ literal, golayDecWord P literal (golayEncWord P u) = some u

/-- R144: a triplet with at most one flipped bit votes its source bit, one with two or three flipped bits its complement, and no other
triplet matters. -/
def Obligations.VoteCorrectsOneFlipPerTriplet : Prop :=
  ∀ (x y : List Bool), y.length = 3 * x.length → (rep3Vote y).length = x.length ∧
    ∀ k < x.length, (rep3Vote y).getD k false =
      if (List.range 3).countP (fun q => y.getD (3 * k + q) false != x.getD k false) ≤ 1 then x.getD k false
      else !x.getD k false

/-! ## Round trips through the machine -/

/-- R144: what REP3.ENC writes, with at most one bit of each triplet flipped on the way into IN_BUF, REP3.DEC turns back into the
encoder's input. (Log 3.) -/
def Obligations.Rep3RoundTripThroughTheCore : Prop :=
  ∀ (s t s' : State), s.params.legal = true → exec .rep3Enc s = .next t → t.res.err = .ok →
    s'.params.legal = true → s'.configured → s'.inLen = t.res.outLen →
    (∀ k < 8 * s.inLen.toNat,
      (List.range 3).countP (fun q => s'.bitAt .inBuf (3 * k + q) != t.bitAt .outBuf (3 * k + q)) ≤ 1) →
    ∃ t', exec .rep3Dec s' = .next t' ∧ t'.res.err = .ok ∧ t'.res.outLen = s.inLen ∧
      ∀ a < s.inLen.toNat, t'.res.outBuf.read a = some (s.byteAt .inBuf a)

/-- R152, R169, R172: what GOLAY.ENC writes, with at most three bits of each codeword flipped on the way into IN_BUF, GOLAY.DEC
turns back into the encoder's input and reports no uncorrectable word. For a `P` under INV and GOLAY (R107), and
`P_CORR_LITERAL = 0`. (Log 3.) -/
def Obligations.GolayRoundTripThroughTheCore : Prop :=
  ∀ (s t s' : State), s.params.legal = true → INV s.params.pMatrix → GOLAY s.params.pMatrix →
    exec .golayEnc s = .next t → t.res.err = .ok → s'.params.legal = true → s'.params.pMatrix = s.params.pMatrix →
    s'.params.pCorrLiteral = false → s'.configured → s'.inLen = t.res.outLen →
    (∀ k < 2 * s.inLen.toNat / 3, weight (s'.blockAt .inBuf 24 k ^^^ t.blockAt .outBuf 24 k) ≤ 3) →
    ∃ t', exec .golayDec s' = .next t' ∧ t'.res.err = .ok ∧ t'.res.uncorrCnt = 0 ∧ t'.res.unc = false ∧
      t'.res.outLen = s.inLen ∧ ∀ a < s.inLen.toNat, t'.res.outBuf.read a = some (s.byteAt .inBuf a)

/-- R169, R170, R174: GOLAY.DEC reports a received word at distance four from a codeword in UMAP, in UNCORR_CNT and in UNC, with
ERR = OK, and emits `0^12` for it. Said under INV and GOLAY (R107), which the default `P` of R174 meets
(`DefaultMatrixIsGolay`). (Log 3.) -/
def Obligations.FourErrorsAreReportedByTheCore : Prop :=
  ∀ (s : State) (k : Nat) (u : BV12), s.params.legal = true → INV s.params.pMatrix → GOLAY s.params.pMatrix →
    s.configured → s.inLen.toNat % 3 = 0 → k < s.inLen.toNat / 3 →
    weight (s.blockAt .inBuf 24 k ^^^ golayEncWord s.params.pMatrix u) = 4 →
    ∃ t, exec .golayDec s = .next t ∧ t.res.err = .ok ∧ t.res.unc = true ∧ 1 ≤ t.res.uncorrCnt.toNat ∧
      t.bitAt .umap k = true ∧ t.blockAt .outBuf 12 k = 0
end

