-- ==== Sys2Proof/Laws/Bits.lean ====
section
/-! SUPPORT. The laws of bit vectors by index, of weight, and of streams, packing and blocks. -/

namespace Sys2Proof.Machine

/-! ## Bits by index -/

theorem bit_cons {n : Nat} (b : Bool) (v : BitVec n) (i : Nat) :
    bit (BitVec.cons b v) i = if i = 0 then b else bit v (i - 1) := by
  cases i with
  | zero => simp [bit, BitVec.getMsbD, BitVec.getElem_cons]
  | succ i =>
    by_cases h : i < n
    · have he : n - (i + 1) = n - 1 - i := by omega
      simp only [bit, BitVec.getMsbD, BitVec.getLsbD_cons]
      simp [h, he]; omega
    · simp [bit, BitVec.getMsbD, h]

@[simp] theorem bit_ofBits (n : Nat) (f : Nat → Bool) (i : Nat) : bit (ofBits n f) i = (decide (i < n) && f i) := by
  induction n generalizing f i with
  | zero => simp [ofBits, bit]
  | succ n ih =>
    rw [ofBits, bit_cons]
    cases i with
    | zero => simp
    | succ i => simp [ih]

/-- Vectors with the same bits are equal. -/
theorem bit_ext {n : Nat} {v w : BitVec n} (h : ∀ i < n, bit v i = bit w i) : v = w :=
  BitVec.eq_of_getMsbD_eq fun i hi => h i hi

@[simp] theorem ofBits_bit {n : Nat} (v : BitVec n) : ofBits n (bit v) = v :=
  bit_ext fun i hi => by simp [hi]

theorem ofBits_congr {n : Nat} {f g : Nat → Bool} (h : ∀ i < n, f i = g i) : ofBits n f = ofBits n g :=
  bit_ext fun i hi => by simp [hi, h i hi]

theorem bit_out {n : Nat} (v : BitVec n) {i : Nat} (h : n ≤ i) : bit v i = false := by
  simp [bit, BitVec.getMsbD, Nat.not_lt.2 h]

@[simp] theorem bit_xor {n : Nat} (v w : BitVec n) (i : Nat) : bit (v ^^^ w) i = (bit v i ^^ bit w i) := by
  simp [bit]

@[simp] theorem bit_zero (n i : Nat) : bit (0#n) i = false := by simp [bit]

theorem bit_append {n m : Nat} (v : BitVec n) (w : BitVec m) (i : Nat) :
    bit (v ++ w) i = if i < n then bit v i else bit w (i - n) := by
  simp [bit, BitVec.getMsbD_append]
  split <;> rename_i h
  · rw [if_neg (by omega)]
  · rw [if_pos (by omega)]

@[simp] theorem bit_unitVector (i : Fin 12) (j : Nat) : bit (unitVector i) j = decide (j = i.val) := by
  simp only [unitVector, bit_ofBits, Bool.and_eq_right_iff_imp, decide_eq_true_eq]
  rintro rfl; exact i.2

@[simp] theorem bit_parityHalf (c : BV24) (j : Nat) : bit (parityHalf c) j = (decide (j < 12) && bit c j) := by
  by_cases h : j < 12
  · have h24 : j < 24 := by omega
    have : 12 + (12 - 1 - j) = 24 - 1 - j := by omega
    simp [bit, parityHalf, BitVec.getMsbD, h, h24, this]; omega
  · simp [bit, BitVec.getMsbD, h]

@[simp] theorem bit_dataHalf (c : BV24) (j : Nat) : bit (dataHalf c) j = (decide (j < 12) && bit c (12 + j)) := by
  by_cases h : j < 12
  · have h24 : 12 + j < 24 := by omega
    have : 12 - 1 - j = 24 - 1 - (12 + j) := by omega
    simp [bit, dataHalf, BitVec.getMsbD, h, h24, this]; omega
  · simp [bit, BitVec.getMsbD, h]

/-- A 24-bit vector is its two halves. -/
theorem halves_append (c : BV24) : parityHalf c ++ dataHalf c = c :=
  bit_ext fun i hi => by
    rw [bit_append]
    split <;> rename_i h
    · simp [h]
    · rw [bit_dataHalf]
      have : 12 + (i - 12) = i := by omega
      simp [this]; omega

@[simp] theorem parityHalf_append (a b : BV12) : parityHalf (a ++ b) = a :=
  bit_ext fun i hi => by rw [bit_parityHalf, bit_append a b]; simp [hi]

@[simp] theorem dataHalf_append (a b : BV12) : dataHalf (a ++ b) = b :=
  bit_ext fun i hi => by rw [bit_dataHalf, bit_append a b]; simp [hi]

/-! ## Weight -/

@[simp] theorem weight_zero (n : Nat) : weight (0#n) = 0 := by
  simp [weight, List.countP_eq_zero]

theorem weight_le {n : Nat} (v : BitVec n) : weight v ≤ n := by
  simpa [weight] using List.countP_le_length (p := bit v) (l := List.range n)

/-- The weight of a vector is the weights of its parts. -/
theorem weight_append {n m : Nat} (v : BitVec n) (w : BitVec m) : weight (v ++ w) = weight v + weight w := by
  unfold weight
  rw [List.range_add, List.countP_append, List.countP_map]
  congr 1
  · refine List.countP_congr fun i hi => ?_
    rw [bit_append, if_pos (List.mem_range.1 hi)]
  · refine List.countP_congr fun i _ => ?_
    simp [bit_append]

/-! ## Streams -/

@[simp] theorem length_bitsOf {n : Nat} (v : BitVec n) : (bitsOf v).length = n := by simp [bitsOf]

@[simp] theorem getD_bitsOf {n : Nat} (v : BitVec n) (i : Nat) : (bitsOf v).getD i false = bit v i := by
  by_cases h : i < n
  · simp [bitsOf, List.getD_eq_getElem?_getD, h]
  · simp [bitsOf, List.getD_eq_getElem?_getD, h, bit_out v (Nat.not_lt.1 h)]

/-- The length of a stream made of blocks of `w` bits. -/
theorem length_flatMap_const {α : Type} {w : Nat} (l : List α) (f : α → List Bool) (h : ∀ a, (f a).length = w) :
    (l.flatMap f).length = w * l.length := by
  induction l with
  | nil => simp
  | cons a l ih => simp [h, ih, Nat.mul_succ, Nat.add_comm]

/-- Bit `w·k + t` of a stream made of blocks of `w` bits is bit `t` of block `k`. -/
theorem getD_flatMap_const {α : Type} {w : Nat} (l : List α) (f : α → List Bool) (h : ∀ a, (f a).length = w)
    {k t : Nat} (hk : k < l.length) (ht : t < w) :
    (l.flatMap f).getD (w * k + t) false = (f l[k]).getD t false := by
  induction l generalizing k with
  | nil => simp at hk
  | cons a l ih =>
    rw [List.flatMap_cons]
    cases k with
    | zero => rw [List.getD_append _ _ _ _ (by rw [h]; omega)]; simp
    | succ k =>
      rw [List.getD_append_right _ _ _ _ (by rw [h, Nat.mul_succ]; omega), h,
        show w * (k + 1) + t - w = w * k + t by rw [Nat.mul_succ]; omega, ih (by simpa using hk)]
      simp

@[simp] theorem length_unpack (B : List Byte) : (unpack B).length = 8 * B.length :=
  length_flatMap_const B _ fun b => length_bitsOf b

theorem getD_unpack (B : List Byte) {i t : Nat} (hi : i < B.length) (ht : t < 8) :
    (unpack B).getD (8 * i + t) false = bit B[i] t := by
  rw [unpack, getD_flatMap_const B _ (fun b => length_bitsOf b) hi ht, getD_bitsOf]

@[simp] theorem length_pack (y : List Bool) : (pack y).length = (y.length + 7) / 8 := by simp [pack]

theorem getElem?_pack (y : List Bool) {i : Nat} (hi : i < (y.length + 7) / 8) :
    (pack y)[i]? = some (ofBits 8 fun t => y.getD (8 * i + t) false) := by
  simp [pack, hi]

@[simp] theorem length_blocks (w : Nat) (x : List Bool) (K : Nat) : (blocks w x K).length = K := by simp [blocks]

theorem getElem_blocks (w : Nat) (x : List Bool) {K k : Nat} (hk : k < K) :
    (blocks w x K)[k]'(by simpa using hk) = ofBits w fun t => x.getD (w * k + t) false := by
  simp [blocks]

/-! ## Enumerating the vectors of small weight -/

/-- The vectors of length `n` and weight `k`. -/
def vectorsOfWeight : (n : Nat) → Nat → List (BitVec n)
  | 0, 0 => [0#0]
  | 0, _ + 1 => []
  | n + 1, 0 => (vectorsOfWeight n 0).map (BitVec.cons false)
  | n + 1, k + 1 => (vectorsOfWeight n (k + 1)).map (BitVec.cons false) ++ (vectorsOfWeight n k).map (BitVec.cons true)

theorem weight_cons {n : Nat} (b : Bool) (v : BitVec n) : weight (BitVec.cons b v) = b.toNat + weight v := by
  have h0 : bit (BitVec.cons b v) 0 = b := by simp [bit_cons]
  have hs : ∀ i, bit (BitVec.cons b v) (i + 1) = bit v i := fun i => by simp [bit_cons]
  unfold weight
  rw [List.range_succ_eq_map, List.countP_cons, List.countP_map, h0]
  have : (bit (BitVec.cons b v) ∘ Nat.succ) = bit v := funext hs
  rw [this]
  cases b <;> simp [Nat.add_comm]

/-- Every vector stands in the list of its weight. -/
theorem mem_vectorsOfWeight {n : Nat} (v : BitVec n) : v ∈ vectorsOfWeight n (weight v) := by
  induction n with
  | zero => rw [BitVec.eq_nil v]; simp [weight, vectorsOfWeight]
  | succ n ih =>
    obtain ⟨b, u, rfl⟩ : ∃ b u, v = BitVec.cons b u := ⟨v.msb, v.setWidth n, (BitVec.cons_msb_setWidth v).symm⟩
    rw [weight_cons]
    cases b with
    | false =>
      have := ih u
      rw [Bool.toNat_false, Nat.zero_add]
      cases hw : weight u with
      | zero => rw [hw] at this; exact List.mem_map_of_mem this
      | succ k => rw [hw] at this; exact List.mem_append_left _ (List.mem_map_of_mem this)
    | true =>
      rw [Bool.toNat_true, Nat.add_comm 1 (weight u)]
      exact List.mem_append_right _ (List.mem_map_of_mem (ih u))

end Sys2Proof.Machine
end

