-- ==== Sys2Proof/Laws/Code.lean ====
section
/-! SUPPORT. A criterion for GOLAY (spec 40_gf2_datapath.md R107) that the kernel evaluates in one walk over the codewords,
where each codeword is one `⊕` away from another. -/

namespace Sys2Proof.Machine

/-- The 1-bits among the lowest `f` bits of `n`. -/
def popcount : Nat → Nat → Nat
  | 0, _ => 0
  | f + 1, n => n % 2 + popcount f (n / 2)

theorem popcount_eq_countP (f n : Nat) : popcount f n = (List.range f).countP n.testBit := by
  induction f generalizing n with
  | zero => rfl
  | succ f ih =>
    have hbit : n % 2 = if n.testBit 0 = true then 1 else 0 := by
      rw [Nat.testBit_zero]; rcases Nat.mod_two_eq_zero_or_one n with h | h <;> simp [h]
    rw [popcount, ih, List.range_succ_eq_map, List.countP_cons, List.countP_map, hbit, Nat.add_comm]
    congr 2
    funext i
    simp [Nat.testBit_succ]

/-- The Hamming weight is the number of 1-bits of the number. -/
theorem weight_eq_popcount {n : Nat} (v : BitVec n) : weight v = popcount n v.toNat := by
  have hbit (i : Nat) (hi : i ∈ List.range n) : bit v i = true ↔ v.toNat.testBit (n - 1 - i) = true := by
    simp [bit, BitVec.getMsbD, BitVec.getLsbD, List.mem_range.1 hi]
  have hrev : (List.range n).map (fun i => n - 1 - i) = (List.range n).reverse := by
    apply List.ext_getElem <;> simp
  rw [popcount_eq_countP, weight, List.countP_congr hbit,
    ← List.countP_reverse (p := v.toNat.testBit) (l := List.range n), ← hrev, List.countP_map]
  rfl

/-- Every `acc ⊕` (a sum of some of `rows`) with at least one row in it, or any where `picked`, has weight 8 or more. -/
def heavySpan : List BV24 → BV24 → Bool → Bool
  | [], acc, picked => !picked || decide (8 ≤ popcount 24 acc.toNat)
  | r :: rows, acc, picked => heavySpan rows acc picked && heavySpan rows (acc ^^^ r) true

/-- `heavySpan` bounds the sums that `vecMat` computes. -/
theorem heavySpan_foldl {m : Nat} (M : Matrix2 m 24) (v : BitVec m) (ls : List (Fin m)) (acc : BV24) (picked : Bool)
    (h : heavySpan (ls.map fun l => M[l]) acc picked = true) (hp : picked = true ∨ ∃ l ∈ ls, bit v l = true) :
    8 ≤ weight (ls.foldl (fun acc (l : Fin m) => if bit v l then acc ^^^ M[l] else acc) acc) := by
  induction ls generalizing acc picked with
  | nil => rw [weight_eq_popcount]; simpa [heavySpan, show picked = true by simpa using hp] using h
  | cons l ls ih =>
    simp only [List.map_cons, heavySpan, Bool.and_eq_true] at h
    rw [List.foldl_cons]
    cases hl : bit v l with
    | true => exact ih _ _ h.2 (.inl rfl)
    | false =>
      refine ih _ _ h.1 (hp.imp_right ?_)
      rintro ⟨k, hk, hb⟩
      rcases List.mem_cons.1 hk with rfl | hk
      · rw [hl] at hb; cases hb
      · exact ⟨k, hk, hb⟩

/-- The criterion. -/
theorem golay_of_heavySpan {P : Matrix2 12 12}
    (h : heavySpan ((List.finRange 12).map fun l => (genMatrix P)[l]) 0 false = true) : GOLAY P := by
  intro u hu
  refine heavySpan_foldl (genMatrix P) u (List.finRange 12) 0 false h (.inr ?_)
  by_contra hnone
  refine hu (bit_ext fun i hi => ?_)
  show bit u i = bit 0#12 i
  rw [bit_zero, ← Bool.not_eq_true]
  exact fun hb => hnone ⟨⟨i, hi⟩, List.mem_finRange _, hb⟩

end Sys2Proof.Machine
end

