-- ==== Sys2Proof/Laws/State.lean ====
section
/-! SUPPORT. One lemma per field of State per update of it, and what the updates of the result registers leave. -/

namespace Sys2Proof.Machine

variable (s : State)

@[simp] theorem State.accept_params : s.accept.params = s.params := rfl
@[simp] theorem State.accept_inLen : s.accept.inLen = s.inLen := rfl
@[simp] theorem State.accept_hz : s.accept.hz = false := rfl
@[simp] theorem State.accept_res : s.accept.res = s.res := rfl
@[simp] theorem State.accept_inBuf : s.accept.inBuf = s.inBuf := rfl
@[simp] theorem State.accept_inFlight : s.accept.inFlight = s.inFlight := rfl
@[simp] theorem State.accept_modelFaults : s.accept.modelFaults = s.modelFaults := rfl
@[simp] theorem State.accept_opTimes : s.accept.opTimes = s.opTimes := rfl
@[simp] theorem State.accept_epoch : s.accept.epoch = s.epoch := rfl
@[simp] theorem State.accept_anyCount : s.accept.anyCount = s.anyCount := rfl
@[simp] theorem State.accept_driver : s.accept.driver = s.driver := rfl

@[simp] theorem State.discardWrite_params : s.discardWrite.params = s.params := rfl
@[simp] theorem State.discardWrite_inLen : s.discardWrite.inLen = s.inLen := rfl
@[simp] theorem State.discardWrite_hz : s.discardWrite.hz = true := rfl
@[simp] theorem State.discardWrite_res : s.discardWrite.res = s.res := rfl
@[simp] theorem State.discardWrite_inBuf : s.discardWrite.inBuf = s.inBuf := rfl
@[simp] theorem State.discardWrite_inFlight : s.discardWrite.inFlight = s.inFlight := rfl
@[simp] theorem State.discardWrite_modelFaults : s.discardWrite.modelFaults = s.modelFaults := rfl
@[simp] theorem State.discardWrite_opTimes : s.discardWrite.opTimes = s.opTimes := rfl
@[simp] theorem State.discardWrite_epoch : s.discardWrite.epoch = s.epoch := rfl
@[simp] theorem State.discardWrite_anyCount : s.discardWrite.anyCount = s.anyCount := rfl
@[simp] theorem State.discardWrite_driver : s.discardWrite.driver = s.driver := rfl

@[simp] theorem State.commitOk_params (y : List Bool) (K : Nat) (m : Option (List Bool)) : (s.commitOk y K m).params = s.params := rfl
@[simp] theorem State.commitOk_inLen (y : List Bool) (K : Nat) (m : Option (List Bool)) : (s.commitOk y K m).inLen = s.inLen := rfl
@[simp] theorem State.commitOk_hz (y : List Bool) (K : Nat) (m : Option (List Bool)) : (s.commitOk y K m).hz = s.hz := rfl
@[simp] theorem State.commitOk_res (y : List Bool) (K : Nat) (m : Option (List Bool)) : (s.commitOk y K m).res = s.res.commitOk y K m := rfl
@[simp] theorem State.commitOk_inBuf (y : List Bool) (K : Nat) (m : Option (List Bool)) : (s.commitOk y K m).inBuf = s.inBuf := rfl
@[simp] theorem State.commitOk_inFlight (y : List Bool) (K : Nat) (m : Option (List Bool)) : (s.commitOk y K m).inFlight = s.inFlight := rfl
@[simp] theorem State.commitOk_modelFaults (y : List Bool) (K : Nat) (m : Option (List Bool)) : (s.commitOk y K m).modelFaults = s.modelFaults := rfl
@[simp] theorem State.commitOk_opTimes (y : List Bool) (K : Nat) (m : Option (List Bool)) : (s.commitOk y K m).opTimes = s.opTimes := rfl
@[simp] theorem State.commitOk_epoch (y : List Bool) (K : Nat) (m : Option (List Bool)) : (s.commitOk y K m).epoch = s.epoch := rfl
@[simp] theorem State.commitOk_anyCount (y : List Bool) (K : Nat) (m : Option (List Bool)) : (s.commitOk y K m).anyCount = s.anyCount := rfl
@[simp] theorem State.commitOk_driver (y : List Bool) (K : Nat) (m : Option (List Bool)) : (s.commitOk y K m).driver = s.driver := rfl

@[simp] theorem State.raiseErr_params (c : StatusCode) : (s.raiseErr c).params = s.params := rfl
@[simp] theorem State.raiseErr_inLen (c : StatusCode) : (s.raiseErr c).inLen = s.inLen := rfl
@[simp] theorem State.raiseErr_hz (c : StatusCode) : (s.raiseErr c).hz = s.hz := rfl
@[simp] theorem State.raiseErr_res (c : StatusCode) : (s.raiseErr c).res = s.res.commitErr c := rfl
@[simp] theorem State.raiseErr_inBuf (c : StatusCode) : (s.raiseErr c).inBuf = s.inBuf := rfl
@[simp] theorem State.raiseErr_inFlight (c : StatusCode) : (s.raiseErr c).inFlight = s.inFlight := rfl
@[simp] theorem State.raiseErr_modelFaults (c : StatusCode) : (s.raiseErr c).modelFaults = s.modelFaults := rfl
@[simp] theorem State.raiseErr_opTimes (c : StatusCode) : (s.raiseErr c).opTimes = s.opTimes := rfl
@[simp] theorem State.raiseErr_epoch (c : StatusCode) : (s.raiseErr c).epoch = s.epoch := rfl
@[simp] theorem State.raiseErr_anyCount (c : StatusCode) : (s.raiseErr c).anyCount = s.anyCount := rfl
@[simp] theorem State.raiseErr_driver (c : StatusCode) : (s.raiseErr c).driver = s.driver := rfl

@[simp] theorem State.setCodec_params (v : Bool) (sch : Scheme) : (s.setCodec v sch).params = s.params := rfl
@[simp] theorem State.setCodec_inLen (v : Bool) (sch : Scheme) : (s.setCodec v sch).inLen = s.inLen := rfl
@[simp] theorem State.setCodec_hz (v : Bool) (sch : Scheme) : (s.setCodec v sch).hz = s.hz := rfl
@[simp] theorem State.setCodec_res (v : Bool) (sch : Scheme) : (s.setCodec v sch).res = { s.res with cfgValid := v, scheme := sch } := rfl
@[simp] theorem State.setCodec_inBuf (v : Bool) (sch : Scheme) : (s.setCodec v sch).inBuf = s.inBuf := rfl
@[simp] theorem State.setCodec_inFlight (v : Bool) (sch : Scheme) : (s.setCodec v sch).inFlight = s.inFlight := rfl
@[simp] theorem State.setCodec_modelFaults (v : Bool) (sch : Scheme) : (s.setCodec v sch).modelFaults = s.modelFaults := rfl
@[simp] theorem State.setCodec_opTimes (v : Bool) (sch : Scheme) : (s.setCodec v sch).opTimes = s.opTimes := rfl
@[simp] theorem State.setCodec_epoch (v : Bool) (sch : Scheme) : (s.setCodec v sch).epoch = s.epoch := rfl
@[simp] theorem State.setCodec_anyCount (v : Bool) (sch : Scheme) : (s.setCodec v sch).anyCount = s.anyCount := rfl
@[simp] theorem State.setCodec_driver (v : Bool) (sch : Scheme) : (s.setCodec v sch).driver = s.driver := rfl

@[simp] theorem State.applyReset_params : s.applyReset.params = s.params := rfl
@[simp] theorem State.applyReset_inLen : s.applyReset.inLen = 0 := rfl
@[simp] theorem State.applyReset_hz : s.applyReset.hz = false := rfl
@[simp] theorem State.applyReset_res : s.applyReset.res = Results.reset := rfl
@[simp] theorem State.applyReset_inBuf : s.applyReset.inBuf = [] := rfl
@[simp] theorem State.applyReset_inFlight : s.applyReset.inFlight = none := rfl
@[simp] theorem State.applyReset_modelFaults : s.applyReset.modelFaults = s.modelFaults := rfl
@[simp] theorem State.applyReset_opTimes : s.applyReset.opTimes = s.opTimes := rfl
@[simp] theorem State.applyReset_epoch : s.applyReset.epoch = s.epoch + 1 := rfl
@[simp] theorem State.applyReset_anyCount : s.applyReset.anyCount = s.anyCount := rfl
@[simp] theorem State.applyReset_driver : s.applyReset.driver = s.driver := rfl

@[simp] theorem State.advance_params : s.advance.params = s.params := rfl
@[simp] theorem State.advance_inLen : s.advance.inLen = s.inLen := rfl
@[simp] theorem State.advance_hz : s.advance.hz = s.hz := rfl
@[simp] theorem State.advance_res : s.advance.res = s.res := rfl
@[simp] theorem State.advance_inBuf : s.advance.inBuf = s.inBuf := rfl
@[simp] theorem State.advance_inFlight : s.advance.inFlight = s.inFlight := rfl
@[simp] theorem State.advance_modelFaults : s.advance.modelFaults = s.modelFaults := rfl
@[simp] theorem State.advance_opTimes : s.advance.opTimes = s.opTimes := rfl
@[simp] theorem State.advance_epoch : s.advance.epoch = s.epoch := rfl
@[simp] theorem State.advance_anyCount : s.advance.anyCount = s.anyCount := rfl
@[simp] theorem State.advance_driver : s.advance.driver = { s.driver with pos := s.driver.pos + 1 } := rfl

@[simp] theorem State.jump_params (p : Nat) : (s.jump p).params = s.params := rfl
@[simp] theorem State.jump_inLen (p : Nat) : (s.jump p).inLen = s.inLen := rfl
@[simp] theorem State.jump_hz (p : Nat) : (s.jump p).hz = s.hz := rfl
@[simp] theorem State.jump_res (p : Nat) : (s.jump p).res = s.res := rfl
@[simp] theorem State.jump_inBuf (p : Nat) : (s.jump p).inBuf = s.inBuf := rfl
@[simp] theorem State.jump_inFlight (p : Nat) : (s.jump p).inFlight = s.inFlight := rfl
@[simp] theorem State.jump_modelFaults (p : Nat) : (s.jump p).modelFaults = s.modelFaults := rfl
@[simp] theorem State.jump_opTimes (p : Nat) : (s.jump p).opTimes = s.opTimes := rfl
@[simp] theorem State.jump_epoch (p : Nat) : (s.jump p).epoch = s.epoch := rfl
@[simp] theorem State.jump_anyCount (p : Nat) : (s.jump p).anyCount = s.anyCount := rfl
@[simp] theorem State.jump_driver (p : Nat) : (s.jump p).driver = { s.driver with pos := p } := rfl

@[simp] theorem State.halt_params : s.halt.params = s.params := rfl
@[simp] theorem State.halt_inLen : s.halt.inLen = s.inLen := rfl
@[simp] theorem State.halt_hz : s.halt.hz = s.hz := rfl
@[simp] theorem State.halt_res : s.halt.res = s.res := rfl
@[simp] theorem State.halt_inBuf : s.halt.inBuf = s.inBuf := rfl
@[simp] theorem State.halt_inFlight : s.halt.inFlight = s.inFlight := rfl
@[simp] theorem State.halt_modelFaults : s.halt.modelFaults = s.modelFaults := rfl
@[simp] theorem State.halt_opTimes : s.halt.opTimes = s.opTimes := rfl
@[simp] theorem State.halt_epoch : s.halt.epoch = s.epoch := rfl
@[simp] theorem State.halt_anyCount : s.halt.anyCount = s.anyCount := rfl
@[simp] theorem State.halt_driver : s.halt.driver = { s.driver with halted := true } := rfl


@[simp] theorem State.setVar_params (v : Var) (x : Word) : (s.setVar v x).params = s.params := rfl
@[simp] theorem State.setVar_inLen (v : Var) (x : Word) : (s.setVar v x).inLen = s.inLen := rfl
@[simp] theorem State.setVar_hz (v : Var) (x : Word) : (s.setVar v x).hz = s.hz := rfl
@[simp] theorem State.setVar_res (v : Var) (x : Word) : (s.setVar v x).res = s.res := rfl
@[simp] theorem State.setVar_inBuf (v : Var) (x : Word) : (s.setVar v x).inBuf = s.inBuf := rfl
@[simp] theorem State.setVar_inFlight (v : Var) (x : Word) : (s.setVar v x).inFlight = s.inFlight := rfl
@[simp] theorem State.setVar_modelFaults (v : Var) (x : Word) : (s.setVar v x).modelFaults = s.modelFaults := rfl
@[simp] theorem State.setVar_opTimes (v : Var) (x : Word) : (s.setVar v x).opTimes = s.opTimes := rfl
@[simp] theorem State.setVar_epoch (v : Var) (x : Word) : (s.setVar v x).epoch = s.epoch := rfl
@[simp] theorem State.setVar_anyCount (v : Var) (x : Word) : (s.setVar v x).anyCount = s.anyCount := rfl
@[simp] theorem State.setVar_driver_script (v : Var) (x : Word) : (s.setVar v x).driver.script = s.driver.script := rfl
@[simp] theorem State.setVar_driver_pos (v : Var) (x : Word) : (s.setVar v x).driver.pos = s.driver.pos := rfl
@[simp] theorem State.setVar_driver_halted (v : Var) (x : Word) : (s.setVar v x).driver.halted = s.driver.halted := rfl

variable (r : Results)

@[simp] theorem Results.commitErr_cfgValid (c : StatusCode) : (r.commitErr c).cfgValid = r.cfgValid := rfl
@[simp] theorem Results.commitErr_scheme (c : StatusCode) : (r.commitErr c).scheme = r.scheme := rfl
@[simp] theorem Results.commitErr_err (c : StatusCode) : (r.commitErr c).err = c := rfl
@[simp] theorem Results.commitErr_unc (c : StatusCode) : (r.commitErr c).unc = false := rfl
@[simp] theorem Results.commitErr_outLen (c : StatusCode) : (r.commitErr c).outLen = 0 := rfl
@[simp] theorem Results.commitErr_nblk (c : StatusCode) : (r.commitErr c).nblk = 0 := rfl
@[simp] theorem Results.commitErr_uncorrCnt (c : StatusCode) : (r.commitErr c).uncorrCnt = 0 := rfl
@[simp] theorem Results.commitErr_outBuf (c : StatusCode) : (r.commitErr c).outBuf = r.outBuf := rfl
@[simp] theorem Results.commitErr_umap (c : StatusCode) : (r.commitErr c).umap = r.umap := rfl

@[simp] theorem Results.commitOk_none_cfgValid (y : List Bool) (K : Nat) : (r.commitOk y K none).cfgValid = r.cfgValid := rfl
@[simp] theorem Results.commitOk_none_scheme (y : List Bool) (K : Nat) : (r.commitOk y K none).scheme = r.scheme := rfl
@[simp] theorem Results.commitOk_none_err (y : List Bool) (K : Nat) : (r.commitOk y K none).err = .ok := rfl
@[simp] theorem Results.commitOk_none_unc (y : List Bool) (K : Nat) : (r.commitOk y K none).unc = false := rfl
@[simp] theorem Results.commitOk_none_outLen (y : List Bool) (K : Nat) : (r.commitOk y K none).outLen = BitVec.ofNat 32 (pack y).length := rfl
@[simp] theorem Results.commitOk_none_nblk (y : List Bool) (K : Nat) : (r.commitOk y K none).nblk = BitVec.ofNat 32 K := rfl
@[simp] theorem Results.commitOk_none_uncorrCnt (y : List Bool) (K : Nat) : (r.commitOk y K none).uncorrCnt = 0 := rfl
@[simp] theorem Results.commitOk_none_outBuf (y : List Bool) (K : Nat) : (r.commitOk y K none).outBuf = r.outBuf.writeFrom 0 (pack y) := rfl
@[simp] theorem Results.commitOk_none_umap (y : List Bool) (K : Nat) : (r.commitOk y K none).umap = r.umap := rfl

@[simp] theorem Results.commitOk_some_cfgValid (y : List Bool) (K : Nat) (m : List Bool) :
    (r.commitOk y K (some m)).cfgValid = r.cfgValid := rfl
@[simp] theorem Results.commitOk_some_scheme (y : List Bool) (K : Nat) (m : List Bool) :
    (r.commitOk y K (some m)).scheme = r.scheme := rfl
@[simp] theorem Results.commitOk_some_err (y : List Bool) (K : Nat) (m : List Bool) :
    (r.commitOk y K (some m)).err = .ok := rfl
@[simp] theorem Results.commitOk_some_unc (y : List Bool) (K : Nat) (m : List Bool) :
    (r.commitOk y K (some m)).unc = uncFlag (BitVec.ofNat 32 (m.count true)) := rfl
@[simp] theorem Results.commitOk_some_outLen (y : List Bool) (K : Nat) (m : List Bool) :
    (r.commitOk y K (some m)).outLen = BitVec.ofNat 32 (pack y).length := rfl
@[simp] theorem Results.commitOk_some_nblk (y : List Bool) (K : Nat) (m : List Bool) :
    (r.commitOk y K (some m)).nblk = BitVec.ofNat 32 K := rfl
@[simp] theorem Results.commitOk_some_uncorrCnt (y : List Bool) (K : Nat) (m : List Bool) :
    (r.commitOk y K (some m)).uncorrCnt = BitVec.ofNat 32 (m.count true) := rfl
@[simp] theorem Results.commitOk_some_outBuf (y : List Bool) (K : Nat) (m : List Bool) :
    (r.commitOk y K (some m)).outBuf = r.outBuf.writeFrom 0 (pack y) := rfl
@[simp] theorem Results.commitOk_some_umap (y : List Bool) (K : Nat) (m : List Bool) :
    (r.commitOk y K (some m)).umap = r.umap.writeFrom 0 (pack m) := rfl

end Sys2Proof.Machine
end

