-- ==== Sys2Proof/Laws/Memory.lean ====
section
/-! SUPPORT. The laws of the sorted tables and the memories: read after write, and that every operation keeps the canonical
form. -/

namespace Sys2Proof.Machine

section Table

variable {w : Nat}

@[simp] theorem lookupCell_putCell_same (a : Nat) (v : BitVec w) (m : List (Nat × BitVec w)) :
    lookupCell a (putCell a v m) = some v := by
  induction m with
  | nil => simp [putCell, lookupCell]
  | cons c m ih =>
    obtain ⟨b, x⟩ := c
    simp only [putCell]
    split
    · simp [lookupCell]
    · split
      · simp [lookupCell]
      · simp [lookupCell, *]

theorem lookupCell_putCell_other {a b : Nat} (h : b ≠ a) (v : BitVec w) (m : List (Nat × BitVec w)) :
    lookupCell b (putCell a v m) = lookupCell b m := by
  induction m with
  | nil => simp [putCell, lookupCell, h]
  | cons c m ih =>
    obtain ⟨d, x⟩ := c
    simp only [putCell]
    split
    · simp [lookupCell, h]
    · split
      · subst d; simp [lookupCell, h]
      · simp [lookupCell, ih]

theorem mem_putCell {a : Nat} {v : BitVec w} {m : List (Nat × BitVec w)} {c : Nat × BitVec w}
    (h : c ∈ putCell a v m) : c = (a, v) ∨ c ∈ m := by
  induction m with
  | nil => simpa [putCell] using h
  | cons d m ih =>
    obtain ⟨b, x⟩ := d
    simp only [putCell] at h
    split at h
    · simpa using h
    · split at h
      · rcases List.mem_cons.1 h with h | h <;> simp [h]
      · rcases List.mem_cons.1 h with h | h
        · simp [h]
        · rcases ih h with h | h <;> simp [h]

theorem mem_dropCell {a : Nat} {m : List (Nat × BitVec w)} {c : Nat × BitVec w} (h : c ∈ dropCell a m) : c ∈ m := by
  induction m with
  | nil => simp [dropCell] at h
  | cons d m ih =>
    obtain ⟨b, x⟩ := d
    simp only [dropCell] at h
    split at h
    · simp [ih h]
    · rcases List.mem_cons.1 h with h | h
      · simp [h]
      · simp [ih h]

/-- Listing a number keeps the numbers strictly rising. -/
theorem putCell_sorted (a : Nat) (v : BitVec w) (m : List (Nat × BitVec w))
    (h : (m.map Prod.fst).Pairwise (· < ·)) : ((putCell a v m).map Prod.fst).Pairwise (· < ·) := by
  induction m with
  | nil => simp [putCell]
  | cons c m ih =>
    obtain ⟨b, x⟩ := c
    simp only [List.map_cons, List.pairwise_cons] at h
    obtain ⟨hb, hm⟩ := h
    simp only [putCell]
    split
    · rename_i hab
      simp only [List.map_cons, List.pairwise_cons, List.mem_cons]
      refine ⟨?_, hb, hm⟩
      rintro y (rfl | hy)
      · exact hab
      · exact hab.trans (hb y hy)
    · split
      · subst b; simpa using ⟨by simpa using hb, hm⟩
      · rename_i h1 h2
        simp only [List.map_cons, List.pairwise_cons]
        refine ⟨fun y hy => ?_, ih hm⟩
        obtain ⟨c, hc, rfl⟩ := List.mem_map.1 hy
        rcases mem_putCell hc with rfl | hc
        · show b < a; omega
        · exact hb _ (List.mem_map_of_mem hc)

/-- Taking a number off keeps the numbers strictly rising. -/
theorem dropCell_sorted (a : Nat) (m : List (Nat × BitVec w)) (h : (m.map Prod.fst).Pairwise (· < ·)) :
    ((dropCell a m).map Prod.fst).Pairwise (· < ·) := by
  induction m with
  | nil => simp [dropCell]
  | cons c m ih =>
    obtain ⟨b, x⟩ := c
    simp only [List.map_cons, List.pairwise_cons] at h
    obtain ⟨hb, hm⟩ := h
    simp only [dropCell]
    split
    · exact ih hm
    · simp only [List.map_cons, List.pairwise_cons]
      refine ⟨fun y hy => ?_, ih hm⟩
      obtain ⟨c, hc, rfl⟩ := List.mem_map.1 hy
      exact hb _ (List.mem_map_of_mem (mem_dropCell hc))

@[simp] theorem lookupCell_dropCell_same (a : Nat) (m : List (Nat × BitVec w)) : lookupCell a (dropCell a m) = none := by
  induction m with
  | nil => rfl
  | cons c m ih =>
    obtain ⟨b, x⟩ := c
    simp only [dropCell]
    split <;> simp_all [lookupCell]

theorem lookupCell_dropCell_other {a b : Nat} (h : b ≠ a) (m : List (Nat × BitVec w)) :
    lookupCell b (dropCell a m) = lookupCell b m := by
  induction m with
  | nil => rfl
  | cons c m ih =>
    obtain ⟨d, x⟩ := c
    simp only [dropCell]
    split
    · subst d; simp [lookupCell, h, ih]
    · simp [lookupCell, ih]

/-- What is listed is an entry. -/
theorem mem_of_lookupCell {a : Nat} {m : List (Nat × BitVec w)} {v : BitVec w} (h : lookupCell a m = some v) :
    (a, v) ∈ m := by
  induction m with
  | nil => simp [lookupCell] at h
  | cons c m ih =>
    obtain ⟨b, x⟩ := c
    simp only [lookupCell] at h
    split at h
    · simp_all
    · exact List.mem_cons_of_mem _ (ih h)

/-- In canonical form, equal reads everywhere make equal tables. -/
theorem lookupCell_of_mem {a : Nat} {m : List (Nat × BitVec w)} {v : BitVec w}
    (hm : (m.map Prod.fst).Pairwise (· < ·)) (h : (a, v) ∈ m) : lookupCell a m = some v := by
  induction m with
  | nil => simp at h
  | cons c m ih =>
    obtain ⟨b, x⟩ := c
    simp only [List.map_cons, List.pairwise_cons] at hm
    rcases List.mem_cons.1 h with h | h
    · simp only [Prod.mk.injEq] at h; simp [lookupCell, h]
    · have := hm.1 a (List.mem_map_of_mem (f := Prod.fst) h)
      simp only [lookupCell]
      rw [if_neg (by omega), ih hm.2 h]

end Table

/-! ## Memories -/

@[simp] theorem Memory.wf_nil : Memory.wf [] := List.Pairwise.nil

@[simp] theorem Memory.read_nil (a : Nat) : Memory.read [] a = none := rfl

@[simp] theorem Memory.read_write_same (m : Memory) (a : Nat) (v : Byte) : (m.write a v).read a = some v :=
  lookupCell_putCell_same a v m

theorem Memory.read_write_other (m : Memory) {a b : Nat} (h : b ≠ a) (v : Byte) : (m.write a v).read b = m.read b :=
  lookupCell_putCell_other h v m

theorem Memory.write_wf {m : Memory} (h : m.wf) (a : Nat) (v : Byte) : (m.write a v).wf := putCell_sorted a v m h

theorem Memory.writeFrom_wf (bs : List Byte) {m : Memory} (h : m.wf) (a : Nat) : (m.writeFrom a bs).wf := by
  induction bs generalizing m a with
  | nil => exact h
  | cons b bs ih => exact ih (Memory.write_wf h a b) (a + 1)

/-- Every byte read after a run of writes: the bytes written, and elsewhere the bytes that were there. -/
theorem Memory.read_writeFrom (bs : List Byte) (m : Memory) (a c : Nat) :
    (m.writeFrom a bs).read c = if a ≤ c ∧ c < a + bs.length then bs[c - a]? else m.read c := by
  induction bs generalizing m a with
  | nil => simp [Memory.writeFrom]
  | cons b bs ih =>
    rw [Memory.writeFrom, ih, List.length_cons]
    rcases Nat.lt_trichotomy c a with h | rfl | h
    · rw [if_neg (by omega), if_neg (by omega), Memory.read_write_other _ (by omega)]
    · rw [if_neg (by omega), if_pos (by omega)]; simp
    · rw [Memory.read_write_other _ (by omega)]
      by_cases hc : c < a + 1 + bs.length
      · rw [if_pos (by omega), if_pos (by omega), show c - a = (c - (a + 1)) + 1 by omega, List.getElem?_cons_succ]
      · rw [if_neg (by omega), if_neg (by omega)]

theorem Memory.holds_writeFrom (bs : List Byte) (m : Memory) {c : Nat} (h : c < bs.length) :
    (m.writeFrom 0 bs).holds c := by
  simp [Memory.holds, Memory.read_writeFrom, h]

theorem Memory.mem_writeFrom {bs : List Byte} {m : Memory} {a : Nat} {c : Host.Cell} (h : c ∈ m.writeFrom a bs) :
    c ∈ m ∨ (a ≤ c.1 ∧ c.1 < a + bs.length) := by
  induction bs generalizing m a with
  | nil => exact .inl h
  | cons b bs ih =>
    rcases ih h with h | h
    · rcases mem_putCell h with rfl | h
      · exact .inr (by simp)
      · exact .inl h
    · exact .inr (by simp only [List.length_cons]; omega)

/-- Addresses stay below a bound that the writes respect. -/
theorem Memory.writeFrom_bound {bs : List Byte} {m : Memory} {n : Nat} (hm : ∀ c ∈ m, c.1 < n) (hb : bs.length ≤ n) :
    ∀ c ∈ m.writeFrom 0 bs, c.1 < n := fun c hc => by
  rcases Memory.mem_writeFrom hc with h | h
  · exact hm c h
  · omega

theorem Memory.write_bound {m : Memory} {a n : Nat} {v : Byte} (hm : ∀ c ∈ m, c.1 < n) (ha : a < n) :
    ∀ c ∈ m.write a v, c.1 < n := fun c hc => by
  rcases mem_putCell hc with rfl | h
  · exact ha
  · exact hm c h

/-! ## The host's variables -/

@[simp] theorem varOf_assignVar_same (vars : List (Nat × Word)) (v : Var) (x : Word) :
    varOf (assignVar vars v x) v = x := by
  unfold varOf assignVar
  split
  · rename_i h; rw [lookupCell_dropCell_same, h]; rfl
  · rw [lookupCell_putCell_same]; rfl

theorem varOf_assignVar_other (vars : List (Nat × Word)) {u v : Var} (h : u ≠ v) (x : Word) :
    varOf (assignVar vars v x) u = varOf vars u := by
  unfold varOf assignVar
  split
  · rw [lookupCell_dropCell_other h]
  · rw [lookupCell_putCell_other h]

theorem assignVar_wf {vars : List (Nat × Word)}
    (h : (vars.map Prod.fst).Pairwise (· < ·) ∧ ∀ c ∈ vars, c.2 ≠ 0) (v : Var) (x : Word) :
    ((assignVar vars v x).map Prod.fst).Pairwise (· < ·) ∧ ∀ c ∈ assignVar vars v x, c.2 ≠ 0 := by
  unfold assignVar
  split
  · exact ⟨dropCell_sorted v vars h.1, fun c hc => h.2 c (mem_dropCell hc)⟩
  · rename_i hx
    refine ⟨putCell_sorted v x vars h.1, fun c hc => ?_⟩
    rcases mem_putCell hc with rfl | hc
    · exact hx
    · exact h.2 c hc

/-- Reset's memories are in canonical form. -/
theorem State.reset_memories_wf :
    State.reset.inBuf.wf ∧ State.reset.res.outBuf.wf ∧ State.reset.res.umap.wf := by decide

end Sys2Proof.Machine
end

