-- ==== Sys2Proof/Laws/Ops.lean ====
section
/-! SUPPORT. What each shared operation can do, said once. -/

namespace Sys2Proof.Machine

/-! ## Reading bytes and recording model faults -/

theorem State.recordFault_eq (s : State) (f : ModelFault) :
    s.recordFault f = { s with modelFaults := (s.recordFault f).modelFaults } := by
  unfold State.recordFault; split <;> rfl

theorem State.mem_recordFault (s : State) (f g : ModelFault) :
    g ∈ (s.recordFault f).modelFaults ↔ g ∈ s.modelFaults ∨ g = f := by
  unfold State.recordFault; split
  · constructor
    · exact .inl
    · rintro (h | rfl) <;> assumption
  · simp

theorem State.recordFault_nodup {s : State} (h : s.modelFaults.Nodup) (f : ModelFault) :
    (s.recordFault f).modelFaults.Nodup := by
  unfold State.recordFault; split
  · exact h
  · rename_i hf
    simp only [List.nodup_append, h, List.nodup_singleton, true_and]
    intro a ha b hb; simp only [List.mem_singleton] at hb; subst hb; rintro rfl; exact hf ha

/-- A read touches nothing but the set of model faults. -/
theorem State.noteRead_eq (s : State) (sp : Space) (a : Nat) :
    s.noteRead sp a = { s with modelFaults := (s.noteRead sp a).modelFaults } := by
  unfold State.noteRead; split
  · rfl
  · exact State.recordFault_eq s _

/-- A read records the fault of its own byte, and only where it holds no value. -/
theorem State.mem_noteRead (s : State) (sp : Space) (a : Nat) (g : ModelFault) :
    g ∈ (s.noteRead sp a).modelFaults ↔ g ∈ s.modelFaults ∨ (g = ⟨sp, a⟩ ∧ (s.mem sp).read a = none) := by
  unfold State.noteRead; split <;> rename_i h
  · simp [h]
  · rw [State.mem_recordFault]; simp [h]

theorem State.noteRead_nodup {s : State} (h : s.modelFaults.Nodup) (sp : Space) (a : Nat) :
    (s.noteRead sp a).modelFaults.Nodup := by
  unfold State.noteRead; split
  · exact h
  · exact State.recordFault_nodup h _

/-- Reading the input touches nothing but the set of model faults. -/
theorem State.noteInput_eq (s : State) (n : Nat) :
    s.noteInput n = { s with modelFaults := (s.noteInput n).modelFaults } := by
  unfold State.noteInput
  induction List.range n generalizing s with
  | nil => rfl
  | cons a l ih => rw [List.foldl_cons, ih, State.noteRead_eq]

/-- Reading the input records exactly the input bytes that hold no value. -/
theorem State.mem_noteInput (s : State) (n : Nat) (g : ModelFault) :
    g ∈ (s.noteInput n).modelFaults ↔
      g ∈ s.modelFaults ∨ (g.space = .inBuf ∧ g.addr < n ∧ s.inBuf.read g.addr = none) := by
  unfold State.noteInput
  suffices h : ∀ l : List Nat, ∀ s : State,
      g ∈ (l.foldl (fun s a => s.noteRead .inBuf a) s).modelFaults ↔
        g ∈ s.modelFaults ∨ (g.space = .inBuf ∧ g.addr ∈ l ∧ s.inBuf.read g.addr = none) by
    simpa using h (List.range n) s
  intro l
  induction l with
  | nil => simp
  | cons a l ih =>
    intro s
    have hb : (s.noteRead .inBuf a).inBuf = s.inBuf := by rw [State.noteRead_eq]
    rw [List.foldl_cons, ih, State.mem_noteRead, hb]
    obtain ⟨sp, b⟩ := g
    simp only [ModelFault.mk.injEq, List.mem_cons, State.mem]
    constructor
    · rintro ((h | ⟨⟨rfl, rfl⟩, h⟩) | h)
      · exact .inl h
      · exact .inr ⟨rfl, .inl rfl, h⟩
      · exact .inr ⟨h.1, .inr h.2.1, h.2.2⟩
    · rintro (h | ⟨rfl, rfl | h, h'⟩)
      · exact .inl (.inl h)
      · exact .inl (.inr ⟨⟨rfl, rfl⟩, h'⟩)
      · exact .inr ⟨rfl, h, h'⟩

theorem State.noteInput_nodup {s : State} (h : s.modelFaults.Nodup) (n : Nat) :
    (s.noteInput n).modelFaults.Nodup := by
  unfold State.noteInput
  induction List.range n generalizing s with
  | nil => exact h
  | cons a l ih => exact ih (State.noteRead_nodup h _ _)

/-- Where every input byte holds a value, reading the input changes nothing. -/
theorem State.noteInput_of_held {s : State} {n : Nat} (h : ∀ a < n, s.inBuf.holds a) : s.noteInput n = s := by
  unfold State.noteInput
  suffices ∀ l : List Nat, (∀ a ∈ l, s.inBuf.holds a) → l.foldl (fun s a => s.noteRead .inBuf a) s = s from
    this _ fun a ha => h a (List.mem_range.1 ha)
  intro l hl
  induction l with
  | nil => rfl
  | cons a l ih =>
    have ha : s.noteRead .inBuf a = s := by
      obtain ⟨b, hb⟩ := Option.isSome_iff_exists.1 (hl a List.mem_cons_self)
      simp [State.noteRead, State.mem, hb]
    rw [List.foldl_cons, ha]
    exact ih fun a ha => hl a (List.mem_cons_of_mem _ ha)

@[simp] theorem State.length_inputBytes (s : State) (n : Nat) : (s.inputBytes n).length = n := by
  simp [State.inputBytes]

theorem State.getElem_inputBytes (s : State) {n a : Nat} (h : a < n) :
    (s.inputBytes n)[a]'(by simpa using h) = s.byteAt .inBuf a := by
  simp [State.inputBytes]

/-- Bit `p` of the input stream is bit `p` of IN_BUF as a stream (20_memory.md R53). -/
theorem State.getD_unpack_inputBytes (s : State) {n p : Nat} (h : p < 8 * n) :
    (unpack (s.inputBytes n)).getD p false = s.bitAt .inBuf p := by
  have hi : p / 8 < n := by omega
  conv_lhs => rw [← Nat.div_add_mod p 8]
  rw [getD_unpack _ (by simpa using hi) (Nat.mod_lt _ (by omega)), State.getElem_inputBytes s hi]
  rfl

/-! ## Completion -/

/-- Bit `p` of OUT_BUF after a successful completion is bit `p` of the output stream, and 0 in the padding
(41_command_and_none.md R126, 20_memory.md R54). -/
theorem State.bitAt_commitOk (s : State) (y : List Bool) (K : Nat) (m : Option (List Bool)) {p : Nat}
    (h : p < 8 * (pack y).length) : (s.commitOk y K m).bitAt .outBuf p = y.getD p false := by
  have hp : p / 8 < (y.length + 7) / 8 := by rw [length_pack] at h; omega
  have hread : (s.commitOk y K m).res.outBuf.read (p / 8) = some (ofBits 8 fun t => y.getD (8 * (p / 8) + t) false) := by
    have : (s.commitOk y K m).res.outBuf = s.res.outBuf.writeFrom 0 (pack y) := rfl
    rw [this, Memory.read_writeFrom, if_pos ⟨Nat.zero_le _, by simpa using hp⟩, Nat.sub_zero, getElem?_pack y hp]
  simp only [State.bitAt, State.byteAt, State.mem, hread, bit_ofBits]
  rw [show 8 * (p / 8) + p % 8 = p from Nat.div_add_mod p 8]
  simp [Nat.mod_lt]

/-- The same of UMAP, where the command supplies a map (20_memory.md R55). -/
theorem State.bitAt_umap_commitOk (s : State) (y : List Bool) (K : Nat) (m : List Bool) {p : Nat}
    (h : p < 8 * (pack m).length) : (s.commitOk y K (some m)).bitAt .umap p = m.getD p false := by
  have hp : p / 8 < (m.length + 7) / 8 := by rw [length_pack] at h; omega
  have hread : (s.commitOk y K (some m)).res.umap.read (p / 8) =
      some (ofBits 8 fun t => m.getD (8 * (p / 8) + t) false) := by
    have : (s.commitOk y K (some m)).res.umap = s.res.umap.writeFrom 0 (pack m) := rfl
    rw [this, Memory.read_writeFrom, if_pos ⟨Nat.zero_le _, by simpa using hp⟩, Nat.sub_zero, getElem?_pack m hp]
  simp only [State.bitAt, State.byteAt, State.mem, hread, bit_ofBits]
  rw [show 8 * (p / 8) + p % 8 = p from Nat.div_add_mod p 8]
  simp [Nat.mod_lt]

/-! ## Preambles -/

/-- What the preamble of ENC and DEC leads to (41_command_and_none.md R124). -/
theorem State.withLength_cases (s : State) (body : Nat → State) :
    (s.res.cfgValid = false ∧ s.withLength body = s.raiseErr .notConfigured) ∨
    (s.res.cfgValid = true ∧ s.params.nMax < s.inLen.toNat ∧ s.withLength body = s.raiseErr .lengthError) ∨
    (s.configured ∧ s.withLength body = body s.inLen.toNat) := by
  unfold State.withLength State.configured
  cases s.res.cfgValid with
  | false => simp
  | true =>
    by_cases h : s.params.nMax < s.inLen.toNat
    · simp [h]
    · simp [h, Nat.not_lt.1 h]

theorem State.withLength_of_configured {s : State} (h : s.configured) (body : Nat → State) :
    s.withLength body = body s.inLen.toNat := by
  unfold State.withLength
  rw [if_neg (by simp [h.1]), if_neg (Nat.not_lt.2 h.2)]

/-- What the alignment check leads to (60_exceptions.md R182, R183). -/
theorem State.withAligned_cases (s : State) (n : Nat) (code : StatusCode) (body : State) :
    (n % 3 ≠ 0 ∧ s.withAligned n code body = s.raiseErr code) ∨
    (n % 3 = 0 ∧ s.withAligned n code body = body) := by
  unfold State.withAligned; split <;> simp_all

/-! ## The life cycle of a command -/

/-- What putting a command in flight leads to (41_command_and_none.md R120, R122). -/
theorem State.launch_cases (s done : State) :
    (s.opTimes = [] ∧ s.launch done = done) ∨
    (∃ later, s.opTimes = 0 :: later ∧ s.launch done = { done with opTimes := later }) ∨
    (∃ d later, s.opTimes = (d + 1) :: later ∧
      s.launch done = { done with opTimes := later, res := s.res, inFlight := some ⟨d + 1, done.res⟩ }) := by
  unfold State.launch
  cases h : s.opTimes with
  | nil => simp
  | cons d later => cases d <;> simp

/-- What the passing of time leads to. -/
theorem State.tick_cases (s : State) :
    (s.inFlight = none ∧ s.tick = s) ∨
    (∃ f, s.inFlight = some f ∧ f.remaining ≤ 1 ∧ s.tick = { s with res := f.commit, inFlight := none }) ∨
    (∃ f, s.inFlight = some f ∧ 1 < f.remaining ∧
      s.tick = { s with inFlight := some { f with remaining := f.remaining - 1 } }) := by
  cases h : s.inFlight with
  | none => simp [State.tick, h]
  | some f =>
    by_cases hf : f.remaining ≤ 1
    · refine .inr (.inl ⟨f, rfl, hf, ?_⟩); simp [State.tick, State.complete, h, hf]
    · refine .inr (.inr ⟨f, rfl, by omega, ?_⟩); simp [State.tick, h, hf]

theorem State.tick_idle {s : State} (h : s.inFlight = none) : s.tick = s := by simp [State.tick, h]

/-- Time changes nothing but what a completion makes visible. -/
theorem State.tick_eq (s : State) : s.tick = { s with res := s.tick.res, inFlight := s.tick.inFlight } := by
  rcases s.tick_cases with ⟨-, h⟩ | ⟨f, -, -, h⟩ | ⟨f, -, -, h⟩ <;> rw [h]

theorem State.busy_iff (s : State) : s.busy = true ↔ ∃ f, s.inFlight = some f := by
  simp [State.busy, Option.isSome_iff_exists]

theorem State.idle_iff (s : State) : s.busy = false ↔ s.inFlight = none := by
  simp [State.busy]

/-- Reading a register changes nothing but the count of any values. -/
theorem State.readReg_eq (s : State) (off : Nat) :
    (s.readReg off).2 = { s with anyCount := (s.readReg off).2.anyCount } := by
  unfold State.readReg State.readResult
  split_ifs <;> rfl

/-- Reading a byte changes nothing but the count of any values and the set of model faults. -/
theorem State.readByte_eq (s : State) (sp : Space) (a : Nat) :
    (s.readByte sp a).2 =
      { s with anyCount := (s.readByte sp a).2.anyCount, modelFaults := (s.readByte sp a).2.modelFaults } := by
  unfold State.readByte
  split
  · rfl
  · split
    · simp only; rw [State.noteRead_eq]
    · simp only; rw [State.noteRead_eq]

/-- The line after which the host goes on is found where the label stands. -/
theorem findLabelFrom_bound {l : Label} {p q : Nat} {script : List HostLine} (h : findLabelFrom l p script = some q) :
    p ≤ q ∧ q < p + script.length := by
  induction script generalizing p with
  | nil => simp [findLabelFrom] at h
  | cons line rest ih =>
    simp only [findLabelFrom] at h
    split at h
    · simp_all
    · have := ih h; simp only [List.length_cons]; omega

end Sys2Proof.Machine
end

