-- ==== Sys2Proof/Laws/Exec.lean ====
section
/-! SUPPORT. The output streams of the schemes, bit by bit, and everything `exec` and the acceptance of a command word can
do, said once. -/

namespace Sys2Proof.Machine

/-! ## Output streams -/

@[simp] theorem length_rep3Expand (x : List Bool) : (rep3Expand x).length = 3 * x.length :=
  length_flatMap_const x _ (fun _ => rfl)

/-- Every source bit stands three times (42_repetition3.md R140). -/
theorem getD_rep3Expand (x : List Bool) {k q : Nat} (hk : k < x.length) (hq : q < 3) :
    (rep3Expand x).getD (3 * k + q) false = x.getD k false := by
  rw [rep3Expand, getD_flatMap_const (w := 3) x _ (fun _ => rfl) hk hq, List.getD_eq_getElem x false hk]
  rcases q with _ | _ | _ | q <;> [rfl; rfl; rfl; omega]

/-- The vote: one bit per triplet (42_repetition3.md R142). -/
theorem rep3Vote_spec (T : Nat) (x : List Bool) (h : x.length = 3 * T) :
    (rep3Vote x).length = T ∧ ∀ k < T, (rep3Vote x).getD k false =
      maj3 (x.getD (3 * k) false) (x.getD (3 * k + 1) false) (x.getD (3 * k + 2) false) := by
  induction T generalizing x with
  | zero => obtain rfl : x = [] := List.length_eq_zero_iff.1 (by omega)
            simp [rep3Vote]
  | succ T ih =>
    match x, h with
    | a :: b :: c :: r, h =>
      obtain ⟨hlen, hget⟩ := ih r (by simp only [List.length_cons] at h; omega)
      refine ⟨by simp [rep3Vote, hlen], fun k hk => ?_⟩
      cases k with
      | zero => simp [rep3Vote]
      | succ k => rw [rep3Vote, List.getD_cons_succ, hget k (by omega)]; rfl
    | [], h => simp at h
    | [a], h => simp only [List.length_cons, List.length_nil] at h; omega
    | [a, b], h => simp only [List.length_cons, List.length_nil] at h; omega

@[simp] theorem length_golayEncStream (P : Matrix2 12 12) (K : Nat) (x : List Bool) :
    (golayEncStream P K x).length = 24 * K := by
  rw [golayEncStream, length_flatMap_const _ _ (fun u => length_bitsOf _), length_blocks]

@[simp] theorem length_golayDecBlocks (P : Matrix2 12 12) (literal : Bool) (K : Nat) (x : List Bool) :
    (golayDecBlocks P literal K x).length = K := by simp [golayDecBlocks]

@[simp] theorem length_golayDataStream (ds : List (Option BV12)) : (golayDataStream ds).length = 12 * ds.length :=
  length_flatMap_const _ _ (fun _ => length_bitsOf _)

@[simp] theorem length_golayMap (ds : List (Option BV12)) : (golayMap ds).length = ds.length := by simp [golayMap]

/-! ## What an instruction can do -/

/-- A successful completion on the machine is one on its result registers, and records the missing input. -/
theorem State.noteInput_commitOk (s : State) (n : Nat) (y : List Bool) (K : Nat) (m : Option (List Bool)) :
    (s.noteInput n).commitOk y K m =
      { s with res := s.res.commitOk y K m, modelFaults := (s.noteInput n).modelFaults } := by
  unfold State.commitOk; rw [State.noteInput_eq]

/-- What a successful completion of `i` on `n` input bytes writes: a stream `y`, a block count `K`, and a map in the case
of GOLAY.DEC alone. `y` is a function of the parameters and the input bytes. -/
inductive Emits (s : State) : Instr → List Bool → Nat → Option (List Bool) → Prop
  | noneEnc : Emits s .noneEnc (unpack (s.inputBytes s.inLen.toNat)) 0 none
  | noneDec : Emits s .noneDec (unpack (s.inputBytes s.inLen.toNat)) 0 none
  | rep3Enc : Emits s .rep3Enc (rep3Expand (unpack (s.inputBytes s.inLen.toNat))) (8 * s.inLen.toNat) none
  | rep3Dec : s.inLen.toNat % 3 = 0 →
      Emits s .rep3Dec (rep3Vote (unpack (s.inputBytes s.inLen.toNat))) (8 * s.inLen.toNat / 3) none
  | golayEnc : s.inLen.toNat % 3 = 0 →
      Emits s .golayEnc
        (golayEncStream s.params.pMatrix (8 * s.inLen.toNat / 12) (unpack (s.inputBytes s.inLen.toNat)))
        (8 * s.inLen.toNat / 12) none
  | golayDec : s.inLen.toNat % 3 = 0 →
      Emits s .golayDec
        (golayDataStream (golayDecBlocks s.params.pMatrix s.params.pCorrLiteral (s.inLen.toNat / 3)
          (unpack (s.inputBytes s.inLen.toNat)))) (s.inLen.toNat / 3)
        (some (golayMap (golayDecBlocks s.params.pMatrix s.params.pCorrLiteral (s.inLen.toNat / 3)
          (unpack (s.inputBytes s.inLen.toNat)))))

/-- What an ENC or DEC with the preamble of 41_command_and_none.md R124 can do, from what it can do on a configured core:
fail with the error commit, or complete. -/
theorem exec_coded {i : Instr} {s : State} {body : Nat → State} (he : exec i s = .next (s.withLength body))
    (hb : (∃ code, code ≠ .ok ∧ code ≠ .configError ∧ body s.inLen.toNat = s.raiseErr code) ∨
      ∃ y K m, Emits s i y K m ∧ body s.inLen.toNat = (s.noteInput s.inLen.toNat).commitOk y K m) :
    ∃ t, exec i s = .next t ∧
      ((∃ code, code ≠ .ok ∧ code ≠ .configError ∧ t = s.raiseErr code) ∨
        s.configured ∧ ∃ y K m, Emits s i y K m ∧ t = (s.noteInput s.inLen.toNat).commitOk y K m) := by
  refine ⟨_, he, ?_⟩
  rcases s.withLength_cases body with ⟨-, h⟩ | ⟨-, -, h⟩ | ⟨hc, h⟩ <;> rw [h]
  · exact .inl ⟨_, by decide, by decide, rfl⟩
  · exact .inl ⟨_, by decide, by decide, rfl⟩
  · exact hb.imp_right fun h => ⟨hc, h⟩

/-- What an ENC or DEC with an alignment check can do on a configured core (60_exceptions.md R182, R183). -/
theorem aligned_coded {i : Instr} {s : State} {code : StatusCode} (hok : code ≠ .ok) (hcfg : code ≠ .configError)
    {y : List Bool} {K : Nat} {m : Option (List Bool)} (h : s.inLen.toNat % 3 = 0 → Emits s i y K m) :
    (∃ c, c ≠ .ok ∧ c ≠ .configError ∧
      s.withAligned s.inLen.toNat code ((s.noteInput s.inLen.toNat).commitOk y K m) = s.raiseErr c) ∨
    ∃ y' K' m', Emits s i y' K' m' ∧
      s.withAligned s.inLen.toNat code ((s.noteInput s.inLen.toNat).commitOk y K m) =
        (s.noteInput s.inLen.toNat).commitOk y' K' m' := by
  rcases s.withAligned_cases s.inLen.toNat code ((s.noteInput s.inLen.toNat).commitOk y K m) with ⟨-, e⟩ | ⟨h0, e⟩
  · exact .inl ⟨code, hok, hcfg, e⟩
  · exact .inr ⟨y, K, m, h h0, e⟩

/-- Everything `exec` can do: it always answers a next state, which is CFG's success or failure, a failed ENC or DEC, or a
successful one. -/
theorem exec_cases (i : Instr) (s : State) : ∃ t, exec i s = .next t ∧
    ((∃ sel scheme, i = .cfg sel ∧ selectorScheme sel = some scheme ∧
        t = (s.setCodec true scheme).commitOk [] 0 none) ∨
      (∃ sel, i = .cfg sel ∧ selectorScheme sel = none ∧
        t = (s.setCodec false .passThrough).raiseErr .configError) ∨
      ((∀ sel, i ≠ .cfg sel) ∧ ∃ code, code ≠ .ok ∧ code ≠ .configError ∧ t = s.raiseErr code) ∨
      ((∀ sel, i ≠ .cfg sel) ∧ s.configured ∧ ∃ y K m, Emits s i y K m ∧
        t = (s.noteInput s.inLen.toNat).commitOk y K m)) := by
  by_cases hi : ∃ sel, i = .cfg sel
  · obtain ⟨sel, rfl⟩ := hi
    refine ⟨_, rfl, ?_⟩
    cases h : selectorScheme sel with
    | some scheme => exact .inl ⟨sel, scheme, rfl, h, rfl⟩
    | none => exact .inr (.inl ⟨sel, rfl, h, rfl⟩)
  · have hi' : ∀ sel, i ≠ .cfg sel := fun sel h => hi ⟨sel, h⟩
    suffices ∃ t, exec i s = .next t ∧
        ((∃ code, code ≠ .ok ∧ code ≠ .configError ∧ t = s.raiseErr code) ∨
          s.configured ∧ ∃ y K m, Emits s i y K m ∧ t = (s.noteInput s.inLen.toNat).commitOk y K m) by
      obtain ⟨t, ht, h | h⟩ := this
      · exact ⟨t, ht, .inr (.inr (.inl ⟨hi', h⟩))⟩
      · exact ⟨t, ht, .inr (.inr (.inr ⟨hi', h⟩))⟩
    cases i with
    | cfg sel => exact absurd rfl (hi' sel)
    | noneEnc => exact exec_coded rfl (.inr ⟨_, _, _, .noneEnc, rfl⟩)
    | noneDec => exact exec_coded rfl (.inr ⟨_, _, _, .noneDec, rfl⟩)
    | rep3Enc => exact exec_coded rfl (.inr ⟨_, _, _, .rep3Enc, rfl⟩)
    | rep3Dec => exact exec_coded rfl (aligned_coded (by decide) (by decide) .rep3Dec)
    | golayEnc => exact exec_coded rfl (aligned_coded (by decide) (by decide) .golayEnc)
    | golayDec => exact exec_coded rfl (aligned_coded (by decide) (by decide) .golayDec)

/-- How much a successful completion writes: at most three output bytes per input byte, and a map of one bit per
block. -/
theorem Emits.bounds {s : State} {i : Instr} {y : List Bool} {K : Nat} {m : Option (List Bool)} (h : Emits s i y K m) :
    (pack y).length ≤ 3 * s.inLen.toNat ∧ K ≤ 8 * s.inLen.toNat ∧
      ∀ l, m = some l → i = .golayDec ∧ K = s.inLen.toNat / 3 ∧ l.length = K := by
  cases h with
  | noneEnc => simp; omega
  | noneDec => simp; omega
  | rep3Enc => simp; omega
  | rep3Dec h0 =>
    have := (rep3Vote_spec (8 * s.inLen.toNat / 3) (unpack (s.inputBytes s.inLen.toNat)) (by simp; omega)).1
    simp [this]; omega
  | golayEnc h0 => simp; omega
  | golayDec h0 => refine ⟨by simp; omega, by omega, ?_⟩; rintro l ⟨⟩; simp

/-! ## What the acceptance of a word can do -/

/-- Everything a CMD write while BUSY = 0 can do: the instruction the decoder reads, or the code of its rejection, on the
accepting machine, put in flight. -/
theorem State.submit_cases (s : State) (w : Word) :
    ∃ done, s.submit w = .next (s.accept.launch done) ∧
      ((∃ i, decode s.res.cfgValid s.res.scheme w = .ok i ∧ exec i s.accept = .next done) ∨
        ∃ r, decode s.res.cfgValid s.res.scheme w = .error r ∧ done = s.accept.raiseErr (rejectCode r)) := by
  unfold State.submit
  cases h : decode s.res.cfgValid s.res.scheme w with
  | ok i =>
    obtain ⟨t, ht, -⟩ := exec_cases i s.accept
    exact ⟨t, by simp [ht, mapNext], .inl ⟨i, rfl, ht⟩⟩
  | error r => exact ⟨_, rfl, .inr ⟨r, rfl, rfl⟩⟩

end Sys2Proof.Machine
end

