-- ==== Sys2Proof/Laws/Fields.lean ====
section
/-! SUPPORT. The fields of a command word and its assembly, as numbers (spec 00_scope.md R13, 30_encoding.md R76). -/

namespace Sys2Proof

/-! ## The fields of a word -/

theorem rsv1Field_toNat (w : Word) : (rsv1Field w).toNat = w.toNat / 4096 := by
  have := w.isLt
  simp [rsv1Field, BitVec.extractLsb'_toNat, Nat.shiftRight_eq_div_pow]; omega

theorem selField_toNat (w : Word) : (selField w).toNat = w.toNat / 16 % 256 := by
  simp [selField, BitVec.extractLsb'_toNat, Nat.shiftRight_eq_div_pow]

theorem rsv0Field_toNat (w : Word) : (rsv0Field w).toNat = w.toNat / 4 % 4 := by
  simp [rsv0Field, BitVec.extractLsb'_toNat, Nat.shiftRight_eq_div_pow]

theorem opcField_toNat (w : Word) : (opcField w).toNat = w.toNat % 4 := by
  simp [opcField, BitVec.extractLsb'_toNat]

/-! ## A word from its fields -/

theorem assembleWord_toNat (a : BitVec 20) (b : BitVec 8) (c d : BitVec 2) :
    (assembleWord a b c d).toNat = a.toNat * 4096 + b.toNat * 16 + c.toNat * 4 + d.toNat := by
  have hb := b.isLt
  have hc := c.isLt
  have hd := d.isLt
  show (a ++ b ++ c ++ d).toNat = _
  rw [BitVec.toNat_append, BitVec.toNat_append, BitVec.toNat_append, ← Nat.shiftLeft_add_eq_or_of_lt hb,
    ← Nat.shiftLeft_add_eq_or_of_lt hc, ← Nat.shiftLeft_add_eq_or_of_lt hd]
  simp only [Nat.shiftLeft_eq]
  omega

section

variable (a : BitVec 20) (b : BitVec 8) (c d : BitVec 2)

@[simp] theorem rsv1Field_assembleWord : rsv1Field (assembleWord a b c d) = a :=
  BitVec.eq_of_toNat_eq (by rw [rsv1Field_toNat, assembleWord_toNat]; omega)

@[simp] theorem selField_assembleWord : selField (assembleWord a b c d) = b :=
  BitVec.eq_of_toNat_eq (by rw [selField_toNat, assembleWord_toNat]; omega)

@[simp] theorem rsv0Field_assembleWord : rsv0Field (assembleWord a b c d) = c :=
  BitVec.eq_of_toNat_eq (by rw [rsv0Field_toNat, assembleWord_toNat]; omega)

@[simp] theorem opcField_assembleWord : opcField (assembleWord a b c d) = d :=
  BitVec.eq_of_toNat_eq (by rw [opcField_toNat, assembleWord_toNat]; omega)

end

/-- A word is the assembly of its fields: they cover every bit. -/
theorem assembleWord_fields (w : Word) : assembleWord (rsv1Field w) (selField w) (rsv0Field w) (opcField w) = w :=
  BitVec.eq_of_toNat_eq (by
    rw [assembleWord_toNat, rsv1Field_toNat, selField_toNat, rsv0Field_toNat, opcField_toNat]; omega)

end Sys2Proof
end

