-- ==== Sys2Proof/Laws/PerInstr.lean ====
section
/-! SUPPORT. Facts of every instruction, one lemma per constructor. -/

namespace Sys2Proof.Laws.LegalWord

/-- The instruction's command word is a legal one: none of the cases of spec 30_encoding.md R80 rejects it. -/
def Statement (i : Instr) : Prop := ∃ c, decodeWord (encode i) = .ok c

theorem cfg (sel : BitVec 8) : Statement (.cfg sel) := by
  refine ⟨.cfg sel, ?_⟩
  simp [decodeWord, encode]

theorem noneEnc : Statement .noneEnc := ⟨.enc, by decide⟩

theorem noneDec : Statement .noneDec := ⟨.dec, by decide⟩

theorem rep3Enc : Statement .rep3Enc := ⟨.enc, by decide⟩

theorem rep3Dec : Statement .rep3Dec := ⟨.dec, by decide⟩

theorem golayEnc : Statement .golayEnc := ⟨.enc, by decide⟩

theorem golayDec : Statement .golayDec := ⟨.dec, by decide⟩

end Sys2Proof.Laws.LegalWord
end

