-- ==== Sys2Proof/Tests/Slice0.lean ====
section
/-! SUPPORT. Tests and witnesses. Expected values are those of spec 95_test_vectors.md, cited at each test, or hand
calculation from the rule cited. The theorems `witness_…` show states that meet all hypotheses of the statement named. -/

namespace Sys2Proof.Tests

open Sys2Proof.Machine

/-! ## Helpers -/

/-- The next state of an outcome. -/
def nextOf (o : Host.Outcome State Fault Refusal) : Option State :=
  match o with
  | .next s => some s
  | .fault _ => none
  | .refused _ => none

/-- The next state of an instruction. -/
def after (i : Instr) (s : State) : State := (nextOf (exec i s)).getD s

/-- A core configured for `scheme` whose input is `input`. -/
def ready (scheme : Scheme) (input : List Byte) : State :=
  { State.reset with
    res := { Results.reset with cfgValid := true, scheme := scheme }
    inLen := BitVec.ofNat 32 input.length
    inBuf := Memory.writeFrom [] 0 input }

/-- A machine whose host has these lines before it. -/
def atLines (lines : List HostLine) (s : State) : State :=
  { s with driver := { script := lines, pos := 0, vars := [], halted := false } }

/-- A core that is busy for two more host lines. -/
def busyCore : State :=
  { ready .golay24 [0x00#8, 0x10#8, 0x00#8] with inFlight := some ⟨2, Results.reset⟩ }

/-- STATUS, OUT_LEN, NBLK, UNCORR_CNT and the buffers after an instruction. -/
def report (i : Instr) (s : State) : Word × Word × Word × Word × List Byte × List Byte :=
  let t := after i s
  (t.statusIdle, t.res.outLen, t.res.nblk, t.res.uncorrCnt, t.res.outBuf.map Prod.snd, t.res.umap.map Prod.snd)

/-! ## Well-formedness: each check, on an ill-formed term and on its well-formed neighbour -/

theorem test_wf_cfg_runs_unconfigured : Instr.wellFormedIn false .passThrough (.cfg 255) = true := by decide

theorem test_wf_noneEnc_needs_configuration : Instr.wellFormedIn false .passThrough .noneEnc = false := by decide

theorem test_wf_noneDec_needs_scheme_0 : Instr.wellFormedIn true .golay24 .noneDec = false := by decide

theorem test_wf_rep3Enc_needs_scheme_1 : Instr.wellFormedIn true .passThrough .rep3Enc = false := by decide

theorem test_wf_rep3Dec_needs_configuration : Instr.wellFormedIn false .repetition3 .rep3Dec = false := by decide

theorem test_wf_golayEnc_needs_scheme_2 : Instr.wellFormedIn true .repetition3 .golayEnc = false := by decide

theorem test_wf_golayDec_needs_configuration : Instr.wellFormedIn false .golay24 .golayDec = false := by decide

theorem test_wf_every_scheme_has_its_rows :
    Instr.wellFormedIn true .passThrough .noneEnc = true ∧ Instr.wellFormedIn true .passThrough .noneDec = true ∧
    Instr.wellFormedIn true .repetition3 .rep3Enc = true ∧ Instr.wellFormedIn true .repetition3 .rep3Dec = true ∧
    Instr.wellFormedIn true .golay24 .golayEnc = true ∧ Instr.wellFormedIn true .golay24 .golayDec = true := by decide

/-- 40_gf2_datapath.md R104: here `P[0][1] = 1` and `P[1][0] = 0`. -/
theorem test_params_not_symmetric :
    Params.legal { Config.defaultParams with pMatrix := Config.defaultP.set 0 0x400#12 } = false := by decide

theorem test_params_capacity_zero : Params.legal { Config.defaultParams with nMax := 0 } = false := by decide

theorem test_params_capacity_too_large : Params.legal { Config.defaultParams with nMax := 2 ^ 29 } = false := by decide

theorem test_params_largest_capacity : Params.legal { Config.defaultParams with nMax := 2 ^ 29 - 1 } = true := by decide

theorem test_step_refuses_illegal_parameters :
    step { State.reset with params := { Config.defaultParams with nMax := 0 } } = .refused .illegalParameters := rfl

/-! ## Decoding: words written out bit by bit, `RRRRRRRRRRRRRRRRRRRR SSSSSSSS rr oo` (30_encoding.md R76, R79) -/

theorem test_decode_cfg :
    decode false .passThrough 0b00000000000000000000_00000010_00_00#32 = .ok (.cfg 2) := by decide

theorem test_decode_cfg_all_ones :
    decode true .repetition3 0b00000000000000000000_11111111_00_00#32 = .ok (.cfg 255) := by decide

theorem test_decode_noneEnc :
    decode true .passThrough 0b00000000000000000000_00000000_00_01#32 = .ok .noneEnc := by decide

theorem test_decode_noneDec :
    decode true .passThrough 0b00000000000000000000_00000000_00_10#32 = .ok .noneDec := by decide

theorem test_decode_rep3Enc :
    decode true .repetition3 0b00000000000000000000_00000000_00_01#32 = .ok .rep3Enc := by decide

theorem test_decode_rep3Dec :
    decode true .repetition3 0b00000000000000000000_00000000_00_10#32 = .ok .rep3Dec := by decide

theorem test_decode_golayEnc :
    decode true .golay24 0b00000000000000000000_00000000_00_01#32 = .ok .golayEnc := by decide

theorem test_decode_golayDec :
    decode true .golay24 0b00000000000000000000_00000000_00_10#32 = .ok .golayDec := by decide

theorem test_decode_not_configured :
    decode false .golay24 0b00000000000000000000_00000000_00_10#32 = .error .notConfigured := by decide

/-- R80 (a), at its lowest and its highest bit. -/
theorem test_decode_illegal_rsv1 :
    decode true .golay24 0b00000000000000000001_00000010_00_00#32 = .error (.illegal .rsv1) ∧
    decode true .golay24 0b10000000000000000000_00000000_00_01#32 = .error (.illegal .rsv1) := by decide

/-- R80 (b), at both bits. -/
theorem test_decode_illegal_rsv0 :
    decode true .golay24 0b00000000000000000000_00000010_01_00#32 = .error (.illegal .rsv0) ∧
    decode true .golay24 0b00000000000000000000_00000000_10_01#32 = .error (.illegal .rsv0) := by decide

/-- R80 (c). -/
theorem test_decode_illegal_opc :
    decode true .golay24 0b00000000000000000000_00000000_00_11#32 = .error (.illegal .opcReserved) := by decide

/-- R80 (d), for ENC and for DEC. -/
theorem test_decode_illegal_sel :
    decode true .golay24 0b00000000000000000000_10000000_00_01#32 = .error (.illegal .selOnEncDec) ∧
    decode true .golay24 0b00000000000000000000_00000001_00_10#32 = .error (.illegal .selOnEncDec) := by decide

theorem test_decode_table_words :
    decodeTableWord 32 0x20 = some (.cfg 2) ∧ decodeTableWord 32 1 = some .noneEnc ∧
    decodeTableWord 32 2 = some .noneDec ∧ decodeTableWord 32 3 = none := by decide

/-! ## The instructions (95_test_vectors.md L2) -/

/-- L2.1, row 4. -/
theorem test_cfg : report (.cfg 2) State.reset = (0x00A, 0, 0, 0, [], []) := by decide

/-- L2.1, row 8. -/
theorem test_cfg_config_error : report (.cfg 255) (ready .golay24 [0xB0]) = (0x010, 0, 0, 0, [], []) := by decide

/-- L2.2. -/
theorem test_noneEnc : report .noneEnc (ready .passThrough [0xB0]) = (0x002, 1, 0, 0, [0xB0], []) := by decide

/-- L2.2: the length check, at the capacity 64. -/
theorem test_noneEnc_too_long :
    (after .noneEnc { ready .passThrough [] with inLen := 65 }).statusIdle = 0x062 := by decide

/-- L2.2. -/
theorem test_noneDec :
    report .noneDec (ready .passThrough [0x12, 0x34, 0x56]) = (0x002, 3, 0, 0, [0x12, 0x34, 0x56], []) := by decide

/-- L2.3. -/
theorem test_rep3Enc :
    report .rep3Enc (ready .repetition3 [0x80, 0x01]) = (0x006, 6, 16, 0, [0xE0, 0, 0, 0, 0, 0x07], []) := by decide

/-- L2.4: two flips in triplet 0. -/
theorem test_rep3Dec :
    report .rep3Dec (ready .repetition3 [0x23, 0xF0, 0x00]) = (0x006, 1, 8, 0, [0x30], []) := by decide

/-- L2.4. -/
theorem test_rep3Dec_malformed :
    report .rep3Dec (ready .repetition3 [0xE3, 0xF0]) = (0x036, 0, 0, 0, [], []) := by decide

/-- L2.5. -/
theorem test_golayEnc :
    report .golayEnc (ready .golay24 [0x12, 0x34, 0x56]) =
      (0x00A, 6, 2, 0, [0x65, 0xF1, 0x23, 0xC7, 0x34, 0x56], []) := by decide

/-- L2.5. -/
theorem test_golayEnc_misaligned :
    report .golayEnc (ready .golay24 [0xAB, 0xCD]) = (0x02A, 0, 0, 0, [], []) := by decide

/-- L2.8: word 0 corrected, word 1 uncorrectable (L1.3), in one buffer. -/
theorem test_golayDec :
    report .golayDec (ready .golay24 [0x7F, 0xE0, 0x01, 0x0F, 0xE0, 0x01]) =
      (0x10A, 3, 2, 1, [0x00, 0x10, 0x00], [0x40]) := by decide +kernel

/-- L2.7, row "4, 15, 22": step 5 and the padding nibble. -/
theorem test_golayDec_step_5 :
    report .golayDec (ready .golay24 [0xF7, 0xE1, 0x03]) = (0x00A, 2, 1, 0, [0x00, 0x10], [0x00]) := by decide

/-! ## The step, the host port and the host script -/

/-- The host's question: the table's word placed by `withFetchWord` is what the next step runs. L2.1, row 4. -/
theorem test_step_runs_placed_cfg :
    (nextOf (step (State.reset.withFetchWord 32 0x20))).map State.statusIdle = some 0x00A := by decide

/-- The same for an ENC word, on an input placed before: L2.2. -/
theorem test_step_runs_placed_noneEnc :
    (nextOf (step ((ready .passThrough [0xB0]).withFetchWord 32 1))).map (fun t => t.res.outBuf) =
      some [(0, 0xB0)] := by decide

/-- L2.1, row 5: an illegal word keeps CFG_VALID and SCHEME. -/
theorem test_step_illegal_word :
    (nextOf (step (atLines [.wrreg 0x00 0x00001020] (ready .golay24 [])))).map State.statusIdle = some 0x05A := by
  decide

/-- L2.9, first row: NOT_CONFIGURED comes before LENGTH_ERROR. -/
theorem test_step_not_configured_first :
    (nextOf (step (atLines [.wrreg 0x00 2] { State.reset with inLen := 100 }))).map State.statusIdle = some 0x040 := by
  decide

/-- L2.10 H1: a discarded IN_BUF write sets HZ and leaves the byte. -/
theorem test_step_hazard :
    (nextOf (step (atLines [.wrin 0 (.imm 0xFF)] busyCore))).map (fun t => (t.hz, t.inBuf.read 0)) =
      some (true, some 0x00) := by decide

/-- 10_state.md R41, 20_memory.md R59: a read of a byte without value is a model fault and the run goes on. -/
theorem test_step_model_fault :
    (nextOf (step (atLines [.rdout 3 1] State.reset))).map (fun t => t.modelFaults) = some [⟨.outBuf, 3⟩] := by decide

/-- L2.10 H5. -/
theorem test_step_reset_while_busy :
    (nextOf (step (atLines [.reset] busyCore))).map (fun t => (t.statusIdle, t.busy, t.inLen, t.inBuf)) =
      some (0x000, false, 0, []) := by decide

/-- 30_encoding.md R90: the branch on STATUS.UNC of L3 P3. -/
theorem test_step_branch :
    (nextOf (step { atLines [.brbit 1 8 (.named 0), .halt, .label (.named 0)] State.reset with
      driver := { script := [.brbit 1 8 (.named 0), .halt, .label (.named 0)], pos := 0, vars := [(1, 0x10A)],
                  halted := false } })).map (fun t => t.driver.pos) = some 2 := by decide

/-- 30_encoding.md R91. -/
theorem test_expand_cfg :
    expandScript [.cfg 2] = [.wrreg 0x00 0x00000020, .label (.wait 0), .rdreg 0x04 0, .brbit 0 0 (.wait 0)] := by decide

/-- 30_encoding.md R91. -/
theorem test_expand_flipin : expandScript [.flipin 5 0x01] = [.rdin 5 0, .wrin 5 (.varXor 0 0x01)] := by decide

/-! ## Witnesses: states and operands that meet the hypotheses of the statements, all together -/

theorem exec_after (i : Instr) (s : State) : exec i s = .next (after i s) := by
  obtain ⟨t, ht, -⟩ := exec_cases i s
  simp [after, ht, nextOf]

/-- The next state of a step. -/
def stepped (s : State) : State := (nextOf (step s)).getD s

theorem default_legal : Config.defaultParams.legal = true := by decide

/-- A core whose input has at most 64 bytes meets the invariant, whatever the script. -/
theorem ready_inv (scheme : Scheme) (input : List Byte) (lines : List HostLine) (h : input.length ≤ 64) :
    (atLines lines (ready scheme input)).Inv where
  params_legal := default_legal
  inBuf_wf := Memory.writeFrom_wf _ Memory.wf_nil 0
  inBuf_bound := Memory.writeFrom_bound (by simp) h
  results := by constructor <;> simp [atLines, ready, Results.reset]
  flight := by simp [atLines, ready, State.reset]
  faults_nodup := List.nodup_nil
  vars_wf := ⟨List.Pairwise.nil, by simp [atLines]⟩

theorem witness_StepRunsDecodedCommand :
    let s := atLines [.wrreg 0x00 1] (ready .golay24 [0x12, 0x34, 0x56])
    s.params.legal = true ∧ s.busy = false ∧ s.driver.current = some (.wrreg 0x00 1) ∧
      decode s.res.cfgValid s.res.scheme 1 = .ok .golayEnc := by decide

/-- One word for each of the cases (a) to (d). -/
theorem witness_IllegalWordCompletesWithIllegalCmd :
    ∀ k ∈ [0x00001000, 0x80000000, 0x00000004, 0x0000000C, 0x00000003, 0x00000011, 0x00000FF2],
      let w := BitVec.ofNat 32 k
      let s := atLines [.wrreg 0x00 w] State.reset
      s.params.legal = true ∧ s.busy = false ∧ s.driver.current = some (.wrreg 0x00 w) ∧ IllegalWord w := by decide

theorem witness_UnconfiguredEncDecCompletesWithNotConfigured :
    ∀ k ∈ [1, 2],
      let w := BitVec.ofNat 32 k
      let s := atLines [.wrreg 0x00 w] State.reset
      s.params.legal = true ∧ s.busy = false ∧ s.driver.current = some (.wrreg 0x00 w) ∧
        (w = 0x00000001#32 ∨ w = 0x00000002#32) ∧ s.res.cfgValid = false := by decide

/-- One state and word for each branch, the lengths at the capacity 64 and beyond it. -/
theorem witness_StatusCodePriority :
    State.reset.opTimes = [] ∧ IllegalWord 0x12 ∧
    (¬IllegalWord 0x20 ∧ (0x20#32).toNat / 16 % 256 ≤ 2) ∧ (¬IllegalWord 0x30 ∧ ¬(0x30#32).toNat / 16 % 256 ≤ 2) ∧
    (¬IllegalWord 2 ∧ State.reset.res.cfgValid = false) ∧
    ({ ready .golay24 [] with inLen := 65 } : State).params.nMax < (65#32).toNat ∧
    ((64#32).toNat ≤ (ready .golay24 []).params.nMax ∧ (64#32).toNat % 3 ≠ 0 ∧ (63#32).toNat % 3 = 0) := by decide

/-- With durations 0, 1 and 2; every `k` from 1 to `d`. -/
theorem witness_CommandCompletesAfterItsDuration :
    ∀ d ∈ [0, 1, 2],
      let s := { atLines [.wrreg 0x00 1] (ready .golay24 [0x12, 0x34, 0x56]) with opTimes := [d] }
      s.params.legal = true ∧ s.busy = false ∧ s.opTimes = d :: [] ∧ s.driver.current = some (.wrreg 0x00 1) ∧
        s.driver.script[s.driver.pos + 1]? = none := by decide

theorem witness_CommandThenWaitSameUnderAnyDuration :
    let s := atLines (.wrreg 0x00 1 :: expandWait 7) (ready .golay24 [0x12, 0x34, 0x56])
    s.Inv ∧ s.busy = false ∧ s.driver.current = some (.wrreg 0x00 1) ∧
      s.driver.script[s.driver.pos + 1]? = some (.label (.wait 7)) ∧
      s.driver.script[s.driver.pos + 2]? = some (.rdreg 0x04 Var.scratch) ∧
      s.driver.script[s.driver.pos + 3]? = some (.brbit Var.scratch 0 (.wait 7)) ∧
      findLabel (.wait 7) s.driver.script = some (s.driver.pos + 1) :=
  ⟨ready_inv _ _ _ (by decide), by decide⟩

/-- Each of the three writes, the IN_BUF write at the last byte. -/
theorem witness_WritesWhileBusyOnlySetHazard :
    ∀ line ∈ [HostLine.wrreg 0x00 1, .wrreg 0x08 6, .wrin 63 (.imm 0xFF)],
      let s := atLines [line] busyCore
      s.params.legal = true ∧ s.busy = true ∧ s.driver.current = some line ∧ 63 < s.params.nMax := by decide

theorem witness_WaitingHostRaisesNoHazard :
    let s := { atLines [.rdreg 0x08 1] busyCore with hz := true }
    (∀ line, s.driver.current = some line → s.busy = true → line.waitsToWrite = true) ∧
      step s = .next (stepped s) ∧ (stepped s).hz = true := by
  refine ⟨?_, rfl, by decide⟩
  rintro line h -
  obtain rfl : HostLine.rdreg 0x08 1 = line := Option.some.inj h
  rfl

/-- Each kind of offset and address, at the ends of the ranges, in each buffer. -/
theorem witness_ReadsWhileBusy :
    busyCore.busy = true ∧ (0x18 ≤ 0x18 ∧ 0x16 % 4 ≠ 0) ∧
    (2 < busyCore.params.nMax ∧ busyCore.inBuf.read 2 = some 0x00) ∧
    (63 < busyCore.params.nMax ∧ busyCore.inBuf.read 63 = none) ∧
    (191 < busyCore.capacity .outBuf ∧ busyCore.res.outBuf.read 191 = none) ∧
    (2 < busyCore.capacity .umap ∧ busyCore.res.umap.read 2 = none) ∧
    (busyCore.capacity .inBuf ≤ 64 ∧ busyCore.capacity .outBuf ≤ 192 ∧ busyCore.capacity .umap ≤ 3) ∧
    let s := atLines [readLine .umap 2 1] busyCore
    s.busy = true ∧ s.params.legal = true ∧ s.driver.current = some (readLine .umap 2 1) ∧ (0 : Var) ≠ 1 := by
  decide

/-- The first offset beyond the registers, an unaligned one, and each read-only register. -/
theorem witness_UnmappedAndReadOnlyRegisters :
    (0x18 ≤ 0x18 ∧ 0x07 % 4 ≠ 0) ∧
    ∀ off ∈ [0x04, 0x0C, 0x10, 0x14, 0x18, 0x07],
      let s := atLines [.wrreg off 0xFFFFFFFF] busyCore
      s.params.legal = true ∧ off ≠ 0x00 ∧ off ≠ 0x08 ∧ s.driver.current = some (.wrreg off 0xFFFFFFFF) := by decide

theorem witness_StatusFieldsWhileIdle : (ready .golay24 []).busy = false := by decide

theorem witness_LengthAndCountRegisters :
    let s := atLines [.wrreg 0x08 0xFFFFFFFF] State.reset
    s.params.legal = true ∧ s.busy = false ∧ s.driver.current = some (.wrreg 0x08 0xFFFFFFFF) := by decide

/-- The last byte and the first address beyond the capacity, idle; the same address beyond it, busy. -/
theorem witness_InBufWriteStoresByte :
    (∀ a ∈ [63, 64],
      let s := atLines [.wrin a (.imm 0xFF)] State.reset
      s.params.legal = true ∧ s.busy = false ∧ s.driver.current = some (.wrin a (.imm 0xFF)) ∧
        (a < s.params.nMax ∨ s.params.nMax ≤ a)) ∧
    (let s := atLines [.wrin 64 (.varXor 1 0x80)] busyCore
     s.params.legal = true ∧ s.busy = true ∧ s.driver.current = some (.wrin 64 (.varXor 1 0x80)) ∧
       s.params.nMax ≤ 64) := by decide

theorem witness_RegisterReadReachesItsVariable :
    ∀ s ∈ [atLines [.rdreg 0x0C 1] State.reset, atLines [.rdreg 0x0C 1] busyCore],
      s.params.legal = true ∧ s.driver.current = some (.rdreg 0x0C 1) := by decide

/-- In each buffer: a byte that holds a value, the last byte without one, and the first address beyond the capacity. -/
theorem witness_BufferReadWhileIdle :
    let s := after .golayDec (ready .golay24 [0x0F, 0xE0, 0x01])
    (∀ sp : Space, sp = .inBuf ∨ sp = .outBuf ∨ sp = .umap → ∀ a,
      let t := atLines [readLine sp a 1] s
      t.params.legal = true ∧ t.busy = false ∧ t.driver.current = some (readLine sp a 1)) ∧
    (s.mem .inBuf).read 2 = some 0x01 ∧ (s.mem .outBuf).read 1 = some 0x00 ∧ (s.mem .umap).read 0 = some 0x80 ∧
    (63 < s.capacity .inBuf ∧ (s.mem .inBuf).read 63 = none) ∧
    (191 < s.capacity .outBuf ∧ (s.mem .outBuf).read 191 = none) ∧
    (2 < s.capacity .umap ∧ (s.mem .umap).read 2 = none) ∧
    s.capacity .inBuf ≤ 64 ∧ s.capacity .outBuf ≤ 192 ∧ s.capacity .umap ≤ 3 :=
  ⟨fun _ _ _ => ⟨default_legal, rfl, rfl⟩, by decide +kernel⟩

/-- A branch with its label on line 1, a label's line, HALT, and a host past the end of its script. -/
theorem witness_HostLocalLines :
    (let s := atLines [.brbit 1 8 (.named 0), .label (.named 0)] busyCore
     s.params.legal = true ∧ s.driver.current = some (.brbit 1 8 (.named 0)) ∧
       findLabel (.named 0) s.driver.script = some 1) ∧
    (atLines [.label (.named 0)] busyCore).driver.current = some (.label (.named 0)) ∧
    (atLines [.halt] busyCore).driver.current = some .halt ∧ (atLines [] busyCore).driver.current = none := by decide

theorem witness_ReadsHaveNoSideEffect :
    (let s := atLines [.rdreg 0x08 1] busyCore
     s.driver.current = some (.rdreg 0x08 1) ∧ step s = .next (stepped s)) ∧
    (let s := atLines [.rdout 63 1] State.reset
     s.driver.current = some (readLine .outBuf 63 1) ∧ step s = .next (stepped s)) := ⟨⟨rfl, rfl⟩, rfl, rfl⟩

theorem witness_ResetFromAnyState :
    ∀ s ∈ [atLines [.reset] busyCore, atLines [.reset] (ready .golay24 [0x12])],
      s.params.legal = true ∧ s.driver.current = some .reset := by decide

/-- The selectors 0, 1, 2, and 3 and 255 on the other side. -/
theorem witness_CfgConfiguresOrReportsConfigError :
    ((0#8).toNat ≤ 2 ∧ (1#8).toNat ≤ 2 ∧ (2#8).toNat ≤ 2) ∧ 3 ≤ (3#8).toNat ∧ 3 ≤ (255#8).toNat := by decide

/-- The empty input and the whole buffer. -/
theorem witness_NoneSchemeCopiesInput :
    (ready .passThrough []).configured ∧ ({ ready .passThrough [] with inLen := 64 } : State).configured ∧
      0 < (64#32).toNat := by decide

/-- The empty input and the whole buffer. -/
theorem witness_Rep3EncTriplesEveryBit :
    ∀ n ∈ [0, 64], let s := { ready .repetition3 [] with inLen := BitVec.ofNat 32 n }
      s.params.legal = true ∧ s.configured := by decide

/-- A length that is a multiple of 3, at the capacity, and one that is not; an odd one and an even one for GOLAY.DEC. -/
theorem witness_Rep3DecVotesOrReportsMalformed :
    ∀ n ∈ [0, 3, 6, 63, 64], let s := { ready .repetition3 [] with inLen := BitVec.ofNat 32 n }
      s.params.legal = true ∧ s.configured ∧ (n = 64 ↔ s.inLen.toNat % 3 ≠ 0) := by decide

theorem witness_GolayEncEncodesEveryChunk :
    ∀ n ∈ [0, 3, 6, 63, 64], let s := { ready .golay24 [] with inLen := BitVec.ofNat 32 n }
      s.params.legal = true ∧ s.configured ∧ (n = 64 ↔ s.inLen.toNat % 3 ≠ 0) := by decide

theorem witness_GolayDecDecodesEveryWord :
    ∀ n ∈ [0, 3, 6, 63, 64], let s := { ready .golay24 [] with inLen := BitVec.ofNat 32 n }
      s.params.legal = true ∧ s.configured ∧ (n = 64 ↔ s.inLen.toNat % 3 ≠ 0) := by decide

/-- The first length beyond the capacity. -/
theorem witness_TooLongInputReportsLengthError :
    (∀ sel, Instr.golayDec ≠ .cfg sel) ∧ (∀ sel, Instr.noneEnc ≠ .cfg sel) ∧
      let s := { ready .golay24 [] with inLen := 65 }
      s.res.cfgValid = true ∧ s.params.nMax < s.inLen.toNat := ⟨nofun, nofun, by decide⟩

/-- A failed CFG and a failed DEC. -/
theorem witness_FailedCommandLeavesOnlyItsCode :
    (exec (.cfg 3) (ready .golay24 []) = .next (after (.cfg 3) (ready .golay24 [])) ∧
      (after (.cfg 3) (ready .golay24 [])).res.err = .configError) ∧
    (exec .rep3Dec (ready .repetition3 [0xE3, 0xF0]) = .next (after .rep3Dec (ready .repetition3 [0xE3, 0xF0])) ∧
      (after .rep3Dec (ready .repetition3 [0xE3, 0xF0])).res.err = .malformed) :=
  ⟨⟨exec_after _ _, by decide⟩, exec_after _ _, by decide⟩

theorem witness_CommandWritesOnlyItsOutput :
    (ready .golay24 [0x0F, 0xE0, 0x01]).params.legal = true ∧
      exec .golayDec (ready .golay24 [0x0F, 0xE0, 0x01]) =
        .next (after .golayDec (ready .golay24 [0x0F, 0xE0, 0x01])) := ⟨by decide, exec_after _ _⟩

theorem witness_OnlyCfgChangesTheConfiguration :
    (∀ sel, Instr.rep3Enc ≠ .cfg sel) ∧
      exec .rep3Enc (ready .repetition3 [0xB0]) = .next (after .rep3Enc (ready .repetition3 [0xB0])) :=
  ⟨nofun, exec_after _ _⟩

/-- A command whose last input byte holds no value. -/
theorem witness_CommandRecordsExactlyMissingInput :
    let s := { ready .passThrough [0x12] with inLen := 2 }
    exec .noneEnc s = .next (after .noneEnc s) ∧ (after .noneEnc s).res.err = .ok ∧ 1 < s.inLen.toNat ∧
      s.inBuf.read 1 = none ∧ (after .noneEnc s).modelFaults = [⟨.inBuf, 1⟩] :=
  ⟨exec_after _ _, by decide, by decide, by decide, by decide⟩

/-- Two cores with the same input: a fresh one and one that an earlier command has left with results. -/
theorem witness_ResultsIndependentOfEarlierCommands :
    let s := ready .golay24 [0x0F, 0xE0, 0x01]
    let s' := after .golayDec s
    s.params.legal = true ∧ s.params = s'.params ∧ s.res.cfgValid = s'.res.cfgValid ∧ s.inLen = s'.inLen ∧
      s.inBuf = s'.inBuf ∧ s.epoch = s'.epoch ∧ exec .golayDec s = .next (after .golayDec s) ∧
      exec .golayDec s' = .next (after .golayDec s') ∧ s.res ≠ s'.res :=
  ⟨by decide, by decide, by decide, by decide, by decide, by decide, exec_after _ _, exec_after _ _, by decide⟩

theorem witness_ModelFaultsAreNeverCleared :
    let s := { atLines [.reset] busyCore with modelFaults := [⟨.outBuf, 3⟩] }
    step s = .next (stepped s) ∧ (⟨.outBuf, 3⟩ : ModelFault) ∈ s.modelFaults := ⟨rfl, by decide⟩

theorem witness_ParametersNeverChange :
    step (atLines [.reset] busyCore) = .next (stepped (atLines [.reset] busyCore)) := rfl

theorem witness_StepAnswersNext :
    let s := atLines (expandScript [.cfg 2, .enc]) State.reset
    s.params.legal = true ∧ s.driver.labelled = true := by decide

theorem witness_StepKeepsTheInvariant :
    let s := atLines [.wrreg 0x00 1] (ready .golay24 [0x12, 0x34, 0x56])
    s.Inv ∧ step s = .next (stepped s) := ⟨ready_inv _ _ _ (by decide), rfl⟩

/-- A core whose last command left one output byte. -/
theorem witness_OutputIsReadableAfterCompletion :
    let s := atLines [] (ready .passThrough [0xB0])
    let t := { s with res := { s.res with outLen := 1, outBuf := [(0, 0xB0)] } }
    t.Inv ∧ t.busy = false ∧ 0 < t.res.outLen.toNat := by
  refine ⟨?_, by decide, by decide⟩
  have h := ready_inv .passThrough [0xB0] [] (by decide)
  exact { h with results := { h.results with
    outBuf_wf := by decide, outBuf_bound := by decide, output_held := by decide,
    failed := fun hne => absurd rfl hne } }

/-- The last column of a 12-column and of a 24-column matrix, and the columns on both sides of the middle. -/
theorem witness_VecMatByFormulaAndLinear : 11 < 12 ∧ 23 < 24 := by decide

theorem witness_MatricesByEntry : 11 < 12 ∧ 12 ≤ 12 ∧ 12 ≤ 23 ∧ 23 < 24 ∧ (11 : Fin 24).val < 12 ∧ ¬(12 : Fin 24).val < 12 := by
  decide

/-- The last bit of a two-byte buffer, and the last bit of a stream with padding. -/
theorem witness_PackAndUnpack :
    1 < [0x12#8, 0x34#8].length ∧ 7 < 8 ∧ 1 < ([true, false, true, true, false, true, false, true, true].length + 7) / 8 ∧
      8 * 1 + 0 < [true, false, true, true, false, true, false, true, true].length ∧
      ¬8 * 1 + 1 < [true, false, true, true, false, true, false, true, true].length := by decide

/-- One syndrome for each step, the weights at the ends of their ranges. -/
theorem witness_CorrectorSearchOrder :
    let P := Config.defaultP
    weight 0xE00#12 ≤ 3 ∧
    (3 < weight 0x02F#12 ∧ ∃ i : Fin 12, weight (0x02F#12 ^^^ P[i]) ≤ 2 ∧ ∀ j < i, 2 < weight (0x02F#12 ^^^ P[j])) ∧
    (3 < weight 0x0FA#12 ∧ (∀ i : Fin 12, 2 < weight (0x0FA#12 ^^^ P[i])) ∧ weight (vecMat 0x0FA#12 P) = 2) ∧
    (3 < weight 0x01F#12 ∧ (∀ i : Fin 12, 2 < weight (0x01F#12 ^^^ P[i])) ∧ weight (vecMat 0x01F#12 P) = 3) ∧
    (3 < weight 0x03B#12 ∧ (∀ i : Fin 12, 2 < weight (0x03B#12 ^^^ P[i])) ∧ weight (vecMat 0x03B#12 P) ≠ 2 ∧
      weight (vecMat 0x03B#12 P) ≠ 3 ∧
      ∃ i : Fin 12, weight (vecMat 0x03B#12 P ^^^ P[i]) = 2 ∧ ∀ j < i, weight (vecMat 0x03B#12 P ^^^ P[j]) ≠ 2) ∧
    (3 < weight 0x00F#12 ∧ (∀ i : Fin 12, 2 < weight (0x00F#12 ^^^ P[i])) ∧ weight (vecMat 0x00F#12 P) ≠ 2 ∧
      weight (vecMat 0x00F#12 P) ≠ 3 ∧ ∀ i : Fin 12, weight (vecMat 0x00F#12 P ^^^ P[i]) ≠ 2) := by decide +kernel

/-- L2.7, rows "12" and "0, 1, 2, 3". -/
theorem witness_DataRecoveredWithItsHalfOfThePattern :
    correct Config.defaultP (syndrome Config.defaultP 0xFFE801#24) = some (.s3 0, 0x000800#24) ∧ 11 < 12 ∧
      correct Config.defaultP (syndrome Config.defaultP 0x0FE001#24) = none := by decide +kernel

/-- The identity matrix, which meets INV. -/
def identityP : Matrix2 12 12 := Vector.ofFn unitVector

theorem witness_EveryPatternExplainsItsSyndrome :
    INV identityP ∧ correct identityP 0xE00#12 = some (.s2, 0xE00000#24) ∧ syndrome identityP 0xE00000#24 = 0xE00#12 :=
  ⟨by unfold INV; decide +kernel, by decide +kernel⟩

/-- The default `P` with its rows and its columns in reverse order: another matrix that meets INV and GOLAY. -/
def reversedP : Matrix2 12 12 :=
  #v[0x7FF#12, 0xC76#12, 0x8ED#12, 0x9DA#12, 0xBB4#12, 0xF68#12,
     0xED1#12, 0xDA3#12, 0xB47#12, 0xE8E#12, 0xD1D#12, 0xA3B#12]

theorem reversedP_inv : INV reversedP := by unfold INV; decide +kernel

theorem reversedP_golay : GOLAY reversedP := golay_of_heavySpan (by decide +kernel)

theorem witness_DefaultMatrixIsGolay : (0x001#12 : BV12) ≠ 0 := by decide

theorem witness_UpToThreeErrorsAreCorrected :
    INV reversedP ∧ GOLAY reversedP ∧ weight 0x084001#24 ≤ 3 ∧ weight 0#24 ≤ 3 :=
  ⟨reversedP_inv, reversedP_golay, by decide⟩

/-- A syndrome that reaches step 3 and passes it, and one that reaches step 5 and passes it. -/
theorem witness_TieBreakingIsUnobservable :
    INV reversedP ∧ GOLAY reversedP ∧
    (correctStep2 0xF40#12 = none ∧ ∃ i : Fin 12, weight (0xF40#12 ^^^ reversedP[i]) ≤ 2) ∧
    (correctStep2 0xDC0#12 = none ∧ correctStep3 reversedP 0xDC0#12 = none ∧
      correctStep4 (vecMat 0xDC0#12 reversedP) = none ∧
      ∃ i : Fin 12, weight (vecMat 0xDC0#12 reversedP ^^^ reversedP[i]) = 2) :=
  ⟨reversedP_inv, reversedP_golay, by decide +kernel, by decide +kernel⟩

theorem witness_FourErrorsAreAlwaysUncorrectable : INV reversedP ∧ GOLAY reversedP ∧ weight 0xF00000#24 = 4 :=
  ⟨reversedP_inv, reversedP_golay, by decide⟩

/-- Three errors, one error, and a pair of the equal halves. -/
theorem witness_LiteralRecoveryOfThreeErrors :
    INV reversedP ∧ GOLAY reversedP ∧ weight 0x084001#24 ≤ 3 ∧ weight 0x000001#24 = 1 ∧
      parityHalf 0x800800#24 = dataHalf 0x800800#24 ∧ weight 0x800800#24 ≤ 3 :=
  ⟨reversedP_inv, reversedP_golay, by decide⟩

/-- Two triplets, with one flip in the first and two in the second. -/
theorem witness_VoteCorrectsOneFlipPerTriplet :
    [false, true, true, true, false, true].length = 3 * [true, false].length ∧ 1 < [true, false].length := by decide

/-- The encoder's output with one bit of the first and of the last triplet flipped. -/
theorem witness_Rep3RoundTripThroughTheCore :
    let s := ready .repetition3 [0xB0]
    let s' := ready .repetition3 [0x63, 0xF0, 0x01]
    s.params.legal = true ∧ exec .rep3Enc s = .next (after .rep3Enc s) ∧ (after .rep3Enc s).res.err = .ok ∧
      s'.params.legal = true ∧ s'.configured ∧ s'.inLen = (after .rep3Enc s).res.outLen ∧
      (∀ k < 8 * s.inLen.toNat,
        (List.range 3).countP
          (fun q => s'.bitAt .inBuf (3 * k + q) != (after .rep3Enc s).bitAt .outBuf (3 * k + q)) ≤ 1) :=
  ⟨by decide, exec_after _ _, by decide, by decide, by decide, by decide, by decide +kernel⟩

/-- A core with the reversed `P`. -/
def withReversedP (s : State) : State := { s with params := { s.params with pMatrix := reversedP } }

/-- The codeword of `000000000001` is `A3 B0 01` under this `P` (its row 11 and the data, 40_gf2_datapath.md R109). Three of its
bits and one bit of the second codeword are flipped. -/
theorem witness_GolayRoundTripThroughTheCore :
    let s := withReversedP (ready .golay24 [0x00, 0x10, 0x00])
    let s' := withReversedP (ready .golay24 [0x27, 0xA0, 0x01, 0x00, 0x00, 0x01])
    s.params.legal = true ∧ INV s.params.pMatrix ∧ GOLAY s.params.pMatrix ∧
      exec .golayEnc s = .next (after .golayEnc s) ∧ (after .golayEnc s).res.err = .ok ∧ s'.params.legal = true ∧
      s'.params.pMatrix = s.params.pMatrix ∧ s'.params.pCorrLiteral = false ∧ s'.configured ∧
      s'.inLen = (after .golayEnc s).res.outLen ∧
      (∀ k < 2 * s.inLen.toNat / 3,
        weight (s'.blockAt .inBuf 24 k ^^^ (after .golayEnc s).blockAt .outBuf 24 k) ≤ 3) :=
  ⟨by decide, reversedP_inv, reversedP_golay, exec_after _ _, by decide, by decide, rfl, rfl, by decide, by decide,
    by decide +kernel⟩

/-- A word at distance four, as the second of two words. -/
theorem witness_FourErrorsAreReportedByTheCore :
    let s := withReversedP (ready .golay24 [0xA3, 0xB0, 0x01, 0x53, 0xB0, 0x01])
    s.params.legal = true ∧ INV s.params.pMatrix ∧ GOLAY s.params.pMatrix ∧ s.configured ∧ s.inLen.toNat % 3 = 0 ∧
      1 < s.inLen.toNat / 3 ∧ weight (s.blockAt .inBuf 24 1 ^^^ golayEncWord s.params.pMatrix 0x001#12) = 4 :=
  ⟨by decide, reversedP_inv, reversedP_golay, by decide, by decide, by decide, by decide +kernel⟩

end Sys2Proof.Tests
end

section
/-! The registers, the results and the invariant (spec 10_state.md): first what an instruction may change, then everything
one step can do, said once, and from it what every step keeps. -/

namespace Sys2Proof.Machine

/-! ## What an instruction leaves of the machine -/

/-- The model faults `new` are those of `old` and maybe more, still without repeats (10_state.md R41). -/
def FaultsExtend (old new : List ModelFault) : Prop := (∀ f ∈ old, f ∈ new) ∧ (old.Nodup → new.Nodup)

theorem FaultsExtend.refl (fs : List ModelFault) : FaultsExtend fs fs := ⟨fun _ => id, id⟩

theorem State.noteRead_faults (s : State) (sp : Space) (a : Nat) :
    FaultsExtend s.modelFaults (s.noteRead sp a).modelFaults :=
  ⟨fun f hf => (s.mem_noteRead sp a f).2 (.inl hf), fun h => State.noteRead_nodup h sp a⟩

theorem State.noteInput_faults (s : State) (n : Nat) : FaultsExtend s.modelFaults (s.noteInput n).modelFaults :=
  ⟨fun f hf => (s.mem_noteInput n f).2 (.inl hf), fun h => State.noteInput_nodup h n⟩

/-- An outcome answers one next state: what is known of some next state of it holds of every one. -/
theorem next_of_exists {o : Host.Outcome State Fault Refusal} {t : State} {p : State → Prop} (h : o = .next t)
    (hex : ∃ u, o = .next u ∧ p u) : p t := by
  obtain ⟨u, hu, hp⟩ := hex
  obtain rfl : u = t := Host.Outcome.next.inj (hu.symm.trans h)
  exact hp

theorem exec_frame {i : Instr} {s t : State} (h : exec i s = .next t) :
    OnlyResultsChange s t ∧ FaultsExtend s.modelFaults t.modelFaults := by
  rcases next_of_exists h (exec_cases i s) with
    ⟨_, _, _, _, rfl⟩ | ⟨_, _, _, rfl⟩ | ⟨_, _, _, _, rfl⟩ | ⟨_, _, _, _, _, _, rfl⟩
  · exact ⟨rfl, .refl _⟩
  · exact ⟨rfl, .refl _⟩
  · exact ⟨rfl, .refl _⟩
  · rw [State.noteInput_commitOk]
    exact ⟨rfl, s.noteInput_faults _⟩

/-- Settles O30: `exec_cases` names the next state, and each of its cases writes results and model faults alone. -/
theorem everyInstructionCompletesAndKeepsTheRest : Obligations.EveryInstructionCompletesAndKeepsTheRest := by
  intro i s
  obtain ⟨t, ht, -⟩ := exec_cases i s
  exact ⟨t, ht, (exec_frame ht).1⟩

theorem Results.commitOk_config (r : Results) (y : List Bool) (K : Nat) (m : Option (List Bool)) :
    (r.commitOk y K m).cfgValid = r.cfgValid ∧ (r.commitOk y K m).scheme = r.scheme := ⟨rfl, rfl⟩

/-- Settles O33: an ENC or DEC ends in the error commit or in `commit_ok`, and neither writes the configuration. -/
theorem onlyCfgChangesTheConfiguration : Obligations.OnlyCfgChangesTheConfiguration := by
  intro i s t hi h
  rcases next_of_exists h (exec_cases i s) with
    ⟨sel, _, rfl, _⟩ | ⟨sel, rfl, _⟩ | ⟨_, _, _, _, rfl⟩ | ⟨_, _, _, _, _, _, rfl⟩
  · exact absurd rfl (hi sel)
  · exact absurd rfl (hi sel)
  · exact ⟨rfl, rfl⟩
  · rw [State.noteInput_commitOk]
    exact Results.commitOk_config _ _ _ _

/-! ## Two runs of an instruction on the same input -/

/-- Two machines agree on everything an instruction may depend on: the parameters, CFG_VALID, IN_LEN and IN_BUF, with the
cells of bytes without value those of the same epoch (10_state.md R39). -/
structure SameInput (s s' : State) : Prop where
  params : s.params = s'.params
  cfgValid : s.res.cfgValid = s'.res.cfgValid
  inLen : s.inLen = s'.inLen
  inBuf : s.inBuf = s'.inBuf
  epoch : s.epoch = s'.epoch

/-- Two machines show the same results of instruction `i`: the registers, the output bytes, and for GOLAY.DEC the map. -/
structure SameResults (i : Instr) (t t' : State) : Prop where
  err : t.res.err = t'.res.err
  unc : t.res.unc = t'.res.unc
  outLen : t.res.outLen = t'.res.outLen
  nblk : t.res.nblk = t'.res.nblk
  uncorrCnt : t.res.uncorrCnt = t'.res.uncorrCnt
  output : ∀ a < t.res.outLen.toNat, t.res.outBuf.read a = t'.res.outBuf.read a
  map : i = .golayDec → ∀ a < (t.res.nblk.toNat + 7) / 8, t.res.umap.read a = t'.res.umap.read a

theorem toNat_ofNat_le (n : Nat) : (BitVec.ofNat 32 n).toNat ≤ n := by
  rw [BitVec.toNat_ofNat]; exact Nat.mod_le _ _

/-- A byte just written does not depend on what the memory held. -/
theorem Memory.read_writeFrom_zero_eq (m m' : Memory) (bs : List Byte) {a : Nat} (h : a < bs.length) :
    (m.writeFrom 0 bs).read a = (m'.writeFrom 0 bs).read a := by
  rw [Memory.read_writeFrom, Memory.read_writeFrom, if_pos (by omega), if_pos (by omega)]

theorem sameResults_raiseErr (i : Instr) (s s' : State) (code : StatusCode) :
    SameResults i (s.raiseErr code) (s'.raiseErr code) where
  err := rfl
  unc := rfl
  outLen := rfl
  nblk := rfl
  uncorrCnt := rfl
  output := by simp
  map := by simp

theorem sameResults_commitOk_none {i : Instr} (hi : i ≠ .golayDec) (s s' : State) (y : List Bool) (K : Nat) :
    SameResults i (s.commitOk y K none) (s'.commitOk y K none) where
  err := rfl
  unc := rfl
  outLen := rfl
  nblk := rfl
  uncorrCnt := rfl
  output := fun _ ha => Memory.read_writeFrom_zero_eq _ _ _ (ha.trans_le (toNat_ofNat_le _))
  map := fun h => absurd h hi

theorem sameResults_commitOk_some (i : Instr) (s s' : State) (y l : List Bool) {K : Nat} (hK : l.length = K) :
    SameResults i (s.commitOk y K (some l)) (s'.commitOk y K (some l)) where
  err := rfl
  unc := rfl
  outLen := rfl
  nblk := rfl
  uncorrCnt := rfl
  output := fun _ ha => Memory.read_writeFrom_zero_eq _ _ _ (ha.trans_le (toNat_ofNat_le _))
  map := fun _ a ha => Memory.read_writeFrom_zero_eq _ _ _ (by
    have hle := toNat_ofNat_le K
    have ha' : a < ((BitVec.ofNat 32 K).toNat + 7) / 8 := ha
    rw [length_pack, hK]; omega)

section

variable {i : Instr} {s s' : State}

theorem SameInput.inputBytes (h : SameInput s s') (n : Nat) : s.inputBytes n = s'.inputBytes n :=
  List.map_congr_left fun a _ => by simp only [State.byteAt, State.mem, h.inBuf, h.epoch]

theorem SameInput.withLength (h : SameInput s s') {body body' : Nat → State}
    (hb : ∀ n, SameResults i (body n) (body' n)) : SameResults i (s.withLength body) (s'.withLength body') := by
  unfold State.withLength
  rw [h.cfgValid, h.params, h.inLen]
  split
  · exact sameResults_raiseErr i s s' _
  · split
    · exact sameResults_raiseErr i s s' _
    · exact hb _

theorem SameResults.withAligned {body body' : State} (hb : SameResults i body body') (n : Nat) (code : StatusCode) :
    SameResults i (s.withAligned n code body) (s'.withAligned n code body') := by
  unfold State.withAligned
  split
  · exact sameResults_raiseErr i s s' code
  · exact hb

theorem SameInput.transform (h : SameInput s s') (hi : i ≠ .golayDec) (n : Nat) (f : List Bool → List Bool) (K : Nat) :
    SameResults i (s.transform n f K) (s'.transform n f K) := by
  unfold State.transform
  rw [h.inputBytes]
  exact sameResults_commitOk_none hi _ _ _ _

/-- The same instruction on the same input leaves the same results. -/
theorem SameInput.sameResults (h : SameInput s s') (i : Instr) :
    ∃ t, exec i s = .next t ∧ ∃ t', exec i s' = .next t' ∧ SameResults i t t' := by
  cases i with
  | cfg sel =>
    refine ⟨_, rfl, _, rfl, ?_⟩
    cases selectorScheme sel with
    | some scheme => exact sameResults_commitOk_none (by simp) _ _ _ _
    | none => exact sameResults_raiseErr _ _ _ _
  | noneEnc => exact ⟨_, rfl, _, rfl, h.withLength fun n => h.transform (by simp) n _ _⟩
  | noneDec => exact ⟨_, rfl, _, rfl, h.withLength fun n => h.transform (by simp) n _ _⟩
  | rep3Enc => exact ⟨_, rfl, _, rfl, h.withLength fun n => h.transform (by simp) n _ _⟩
  | rep3Dec => exact ⟨_, rfl, _, rfl, h.withLength fun n => (h.transform (by simp) n _ _).withAligned n _⟩
  | golayEnc =>
    refine ⟨_, rfl, _, rfl, h.withLength fun n => SameResults.withAligned ?_ n _⟩
    rw [h.params]
    exact h.transform (by simp) n _ _
  | golayDec =>
    refine ⟨_, rfl, _, rfl, h.withLength fun n => SameResults.withAligned ?_ n _⟩
    rw [h.params, h.inputBytes]
    exact sameResults_commitOk_some _ _ _ _ _ (by simp)

end

/-- Settles O35: `exec` reads nothing of the machine but its input (`SameInput`). -/
theorem resultsIndependentOfEarlierCommands : Obligations.ResultsIndependentOfEarlierCommands := by
  intro i s s' t t' _ hparams hcfg hlen hbuf hepoch ht ht'
  have hinput : SameInput s s' := ⟨hparams, hcfg, hlen, hbuf, hepoch⟩
  have hsame : SameResults i t t' := next_of_exists ht' (next_of_exists ht (hinput.sameResults i))
  exact ⟨hsame.err, hsame.unc, hsame.outLen, hsame.nblk, hsame.uncorrCnt, hsame.output, hsame.map⟩

/-! ## Everything one step can do -/

@[simp] theorem State.advance_busy (s : State) : s.advance.busy = s.busy := rfl
@[simp] theorem State.tick_params (s : State) : s.tick.params = s.params := by rw [State.tick_eq]
@[simp] theorem State.tick_hz (s : State) : s.tick.hz = s.hz := by rw [State.tick_eq]
@[simp] theorem State.tick_modelFaults (s : State) : s.tick.modelFaults = s.modelFaults := by rw [State.tick_eq]

theorem FaultsExtend.tick {fs : List ModelFault} {s : State} (h : FaultsExtend fs s.modelFaults) :
    FaultsExtend fs s.tick.modelFaults := by
  rwa [State.tick_modelFaults]

/-- What one step of a machine with legal parameters leads to, by what its line does to the core. -/
inductive StepEffect (s : State) : State → Prop
  /-- Only time passes for the core; the host moves on. -/
  | passes (d : Driver) (vars : d.vars = s.driver.vars) : StepEffect s { s with driver := d }.tick
  /-- A write of CMD, IN_LEN or IN_BUF is discarded because BUSY = 1 (70_reset_and_hazards.md R207 to R209). -/
  | discards (line : HostLine) (next : s.driver.current = some line) (busy : s.busy = true)
      (writes : line.waitsToWrite = false) : StepEffect s s.advance.discardWrite.tick
  /-- A command word is accepted (41_command_and_none.md R120). -/
  | submits (w : Word) (t : State) (idle : s.busy = false) (submit : s.advance.submit w = .next t) : StepEffect s t
  /-- IN_LEN takes a word (10_state.md R32). -/
  | setsLength (w : Word) (idle : s.busy = false) : StepEffect s { s.advance with inLen := w }
  /-- A byte of IN_BUF is stored (20_memory.md R51). -/
  | storesByte (a : Nat) (b : Byte) (idle : s.busy = false) (inside : a < s.params.nMax) :
      StepEffect s { s.advance with inBuf := s.inBuf.write a b }.tick
  /-- A register is read into a variable. -/
  | readsReg (off : Nat) (v : Var) : StepEffect s (State.finishRead v (s.readReg off))
  /-- A byte is read into a variable. -/
  | readsByte (sp : Space) (a : Nat) (v : Var) : StepEffect s (State.finishByteRead v (s.readByte sp a))
  /-- The RESET input (70_reset_and_hazards.md R200). -/
  | resets : StepEffect s s.applyReset.advance

theorem writeReg_effect {s t : State} {off : Nat} {w : Word} (hline : s.driver.current = some (.wrreg off w))
    (h : s.advance.writeReg off w = .next t) : StepEffect s t := by
  unfold State.writeReg at h
  split_ifs at h with h0 hb h8 hb
  · cases h
    exact .discards _ hline hb (by simp [HostLine.waitsToWrite, h0])
  · exact .submits w t (by simpa using hb) h
  · cases h
    exact .discards _ hline hb (by simp [HostLine.waitsToWrite, h8])
  · cases h
    exact .setsLength w (by simpa using hb)
  · cases h
    exact .passes _ rfl

theorem writeIn_effect {s : State} {a : Nat} {x : ByteOperand} (hline : s.driver.current = some (.wrin a x)) (b : Byte) :
    StepEffect s (s.writeIn a b).advance.tick := by
  unfold State.writeIn
  split_ifs with ha hb
  · exact .passes _ rfl
  · exact .discards _ hline hb rfl
  · exact .storesByte a b (by simpa using hb) (Nat.lt_of_not_le ha)

theorem branch_effect {s t : State} {v : Var} {b : Nat} {l : Label} (h : runLine (.brbit v b l) s = .next t) :
    StepEffect s t := by
  simp only [runLine] at h
  split_ifs at h
  · split at h
    · cases h
      exact .passes _ rfl
    · cases h
  · cases h
    exact .passes _ rfl

theorem runLine_effect {s t : State} {line : HostLine} (hline : s.driver.current = some line)
    (h : runLine line s = .next t) : StepEffect s t := by
  cases line with
  | wrreg off w => exact writeReg_effect hline h
  | rdreg off v => cases h; exact .readsReg off v
  | wrin a x => cases h; exact writeIn_effect hline _
  | rdin a v => cases h; exact .readsByte .inBuf a v
  | rdout a v => cases h; exact .readsByte .outBuf a v
  | rdumap a v => cases h; exact .readsByte .umap a v
  | reset => cases h; exact .resets
  | brbit v b l => exact branch_effect h
  | halt => cases h; exact .passes _ rfl
  | label l => cases h; exact .passes _ rfl

/-- Everything a step that answers a next state can do. -/
theorem step_effect {s t : State} (h : step s = .next t) : StepEffect s t := by
  unfold step State.runNext at h
  split_ifs at h
  split at h
  · next line hline => exact runLine_effect hline h
  · cases h
    exact .passes s.driver rfl

/-! ## What a command and a read leave of the machine -/

theorem launch_frame (s done : State) :
    (s.launch done).params = done.params ∧ (s.launch done).hz = done.hz ∧
      (s.launch done).modelFaults = done.modelFaults := by
  rcases s.launch_cases done with ⟨-, h⟩ | ⟨_, -, h⟩ | ⟨_, _, -, h⟩ <;> rw [h] <;> exact ⟨rfl, rfl, rfl⟩

/-- What an accepted word leaves when it completes, on the accepting machine. -/
theorem submit_done {s t : State} {w : Word} (h : s.submit w = .next t) :
    ∃ done, t = s.accept.launch done ∧ OnlyResultsChange s.accept done ∧
      FaultsExtend s.modelFaults done.modelFaults ∧
      ((∃ i, exec i s.accept = .next done) ∨ ∃ code, done = s.accept.raiseErr code) := by
  obtain ⟨done, hdone, hcases⟩ := s.submit_cases w
  refine ⟨done, Host.Outcome.next.inj (h.symm.trans hdone), ?_⟩
  rcases hcases with ⟨i, -, hi⟩ | ⟨r, -, rfl⟩
  · exact ⟨(exec_frame hi).1, (exec_frame hi).2, .inl ⟨i, hi⟩⟩
  · exact ⟨rfl, .refl _, .inr ⟨_, rfl⟩⟩

theorem submit_frame {s t : State} {w : Word} (h : s.submit w = .next t) :
    t.params = s.params ∧ t.hz = false ∧ FaultsExtend s.modelFaults t.modelFaults := by
  obtain ⟨done, rfl, hframe, hfaults, -⟩ := submit_done h
  obtain ⟨hp, hh, hm⟩ := launch_frame s.accept done
  rw [hp, hh, hm]
  exact ⟨by rw [hframe]; rfl, by rw [hframe]; rfl, hfaults⟩

/-- `r` is `s` after a read: nothing but the count of any values differs, and the model faults, which may be more. -/
def ReadOf (s r : State) : Prop :=
  r = { s with anyCount := r.anyCount, modelFaults := r.modelFaults } ∧ FaultsExtend s.modelFaults r.modelFaults

theorem State.readReg_readOf (s : State) (off : Nat) : ReadOf s (s.readReg off).2 := by
  rw [State.readReg_eq]
  exact ⟨rfl, .refl _⟩

theorem State.readByte_readOf (s : State) (sp : Space) (a : Nat) : ReadOf s (s.readByte sp a).2 := by
  refine ⟨s.readByte_eq sp a, ?_⟩
  unfold State.readByte
  split_ifs
  · exact .refl _
  · exact s.noteRead_faults sp a
  · exact s.noteRead_faults sp a

theorem finishRead_frame {s r : State} (h : ReadOf s r) (v : Var) (x : Word) :
    (State.finishRead v (x, r)).params = s.params ∧ (State.finishRead v (x, r)).hz = s.hz ∧
      FaultsExtend s.modelFaults (State.finishRead v (x, r)).modelFaults := by
  obtain ⟨heq, hfaults⟩ := h
  simp only [State.finishRead, State.tick_params, State.advance_params, State.setVar_params, State.tick_hz,
    State.advance_hz, State.setVar_hz, State.tick_modelFaults, State.advance_modelFaults, State.setVar_modelFaults]
  exact ⟨by rw [heq], by rw [heq], hfaults⟩

/-! ## What every step keeps -/

/-- Every step keeps the parameters and every model fault, and HZ rises only where a write is discarded. -/
theorem step_frame {s t : State} (h : step s = .next t) :
    t.params = s.params ∧ FaultsExtend s.modelFaults t.modelFaults ∧
      (t.hz = true → s.hz = true ∨
        ∃ line, s.driver.current = some line ∧ s.busy = true ∧ line.waitsToWrite = false) := by
  cases step_effect h with
  | passes d _ => exact ⟨State.tick_params _, .tick (.refl _), fun ht => .inl (by simpa using ht)⟩
  | discards line next busy writes =>
    exact ⟨State.tick_params _, .tick (.refl _), fun _ => .inr ⟨line, next, busy, writes⟩⟩
  | submits w _ _ submit =>
    obtain ⟨hparams, hhz, hfaults⟩ := submit_frame submit
    exact ⟨hparams, hfaults, fun ht => by simp [hhz] at ht⟩
  | setsLength w _ => exact ⟨rfl, .refl _, .inl⟩
  | storesByte a b _ _ => exact ⟨State.tick_params _, .tick (.refl _), fun ht => .inl (by simpa using ht)⟩
  | readsReg off v =>
    obtain ⟨hparams, hhz, hfaults⟩ := finishRead_frame (s.readReg_readOf off) v _
    exact ⟨hparams, hfaults, fun ht => .inl (hhz ▸ ht)⟩
  | readsByte sp a v =>
    obtain ⟨hparams, hhz, hfaults⟩ := finishRead_frame (s.readByte_readOf sp a) v _
    exact ⟨hparams, hfaults, fun ht => .inl (hhz ▸ ht)⟩
  | resets => exact ⟨rfl, .refl _, fun ht => by simp at ht⟩

/-- Settles O11: a step raises HZ only by a discarded write, and a host that waits has none. -/
theorem waitingHostRaisesNoHazard : Obligations.WaitingHostRaisesNoHazard := by
  intro s t hwaits h ht
  obtain ⟨-, -, hhz⟩ := step_frame h
  rcases hhz ht with hs | ⟨line, hline, hbusy, hw⟩
  · exact hs
  · rw [hwaits line hline hbusy] at hw
    cases hw

/-- Settles O36: the model faults of a step extend those before it. -/
theorem modelFaultsAreNeverCleared : Obligations.ModelFaultsAreNeverCleared := by
  intro s t h
  obtain ⟨-, ⟨hfaults, -⟩, -⟩ := step_frame h
  exact hfaults

/-- Settles O37, by the first part of `step_frame`. -/
theorem parametersNeverChange : Obligations.ParametersNeverChange := by
  intro s t h
  exact (step_frame h).1

/-! ## The invariant of the results -/

section

variable {n : Nat} {r : Results}

theorem Results.reset_inv (n : Nat) : Results.reset.Inv n where
  outBuf_wf := Memory.wf_nil
  umap_wf := Memory.wf_nil
  outBuf_bound := by simp [Results.reset]
  umap_bound := by simp [Results.reset]
  scheme_unconfigured := fun _ => rfl
  unc_iff := by simp [Results.reset]
  failed := fun _ => ⟨rfl, rfl, rfl⟩
  output_held := by simp [Results.reset]
  uncorr_le := Nat.le_refl _
  map_held := by simp [Results.reset]

theorem Results.Inv.setCodec (h : r.Inv n) {valid : Bool} {scheme : Scheme}
    (hs : valid = false → scheme = .passThrough) : Results.Inv n { r with cfgValid := valid, scheme := scheme } :=
  { h with scheme_unconfigured := hs }

theorem Results.Inv.commitErr (h : r.Inv n) (code : StatusCode) : (r.commitErr code).Inv n :=
  { h with
    unc_iff := by simp
    failed := fun _ => ⟨rfl, rfl, rfl⟩
    output_held := by simp
    uncorr_le := Nat.le_refl _
    map_held := by simp }

/-- Every byte below the length that a register of 32 bits holds was written. -/
theorem Memory.holds_written (m : Memory) (bs : List Byte) : ∀ a < (BitVec.ofNat 32 bs.length).toNat,
    (m.writeFrom 0 bs).holds a := fun _ ha => Memory.holds_writeFrom bs m (ha.trans_le (toNat_ofNat_le _))

theorem Results.Inv.commitOk_none (h : r.Inv n) {y : List Bool} (hy : (pack y).length ≤ 3 * n) (K : Nat) :
    (r.commitOk y K none).Inv n :=
  { h with
    outBuf_wf := Memory.writeFrom_wf _ h.outBuf_wf 0
    outBuf_bound := Memory.writeFrom_bound h.outBuf_bound hy
    unc_iff := by simp
    failed := fun hne => absurd rfl hne
    output_held := Memory.holds_written _ _
    uncorr_le := Nat.zero_le _
    map_held := by simp }

theorem Results.Inv.commitOk_some (h : r.Inv n) {y l : List Bool} (hy : (pack y).length ≤ 3 * n)
    (hl : l.length ≤ n / 3) (hn : n < 2 ^ 32) : (r.commitOk y l.length (some l)).Inv n :=
  { h with
    outBuf_wf := Memory.writeFrom_wf _ h.outBuf_wf 0
    umap_wf := Memory.writeFrom_wf _ h.umap_wf 0
    outBuf_bound := Memory.writeFrom_bound h.outBuf_bound hy
    umap_bound := Memory.writeFrom_bound h.umap_bound (by rw [length_pack]; omega)
    unc_iff := by simp [uncFlag]
    failed := fun hne => absurd rfl hne
    output_held := Memory.holds_written _ _
    uncorr_le := by
      have hcount : l.count true ≤ l.length := List.count_le_length
      rw [Results.commitOk_some_uncorrCnt, Results.commitOk_some_nblk, BitVec.toNat_ofNat, BitVec.toNat_ofNat,
        Nat.mod_eq_of_lt (by omega), Nat.mod_eq_of_lt (by omega)]
      exact hcount
    map_held := fun _ a ha => Memory.holds_writeFrom _ _ (by
      have hle := toNat_ofNat_le l.length
      rw [Results.commitOk_some_nblk] at ha
      rw [length_pack]; omega) }

end

/-! ## The invariant of the machine -/

theorem State.Inv.nMax_lt {s : State} (h : s.Inv) : s.params.nMax < 2 ^ 32 := by
  have hlegal := h.params_legal
  simp only [Params.legal, Params.capacityLegal, Bool.and_eq_true, decide_eq_true_eq] at hlegal
  omega

theorem exec_keeps_results {i : Instr} {s t : State} (hs : s.Inv) (h : exec i s = .next t) :
    t.res.Inv s.params.nMax := by
  rcases next_of_exists h (exec_cases i s) with
    ⟨_, _, _, _, rfl⟩ | ⟨_, _, _, rfl⟩ | ⟨_, _, _, _, rfl⟩ | ⟨_, hc, y, K, m, hemits, rfl⟩
  · exact (hs.results.setCodec (by simp)).commitOk_none (by simp) 0
  · exact (hs.results.setCodec fun _ => rfl).commitErr _
  · exact hs.results.commitErr _
  · obtain ⟨-, hlen⟩ := hc
    obtain ⟨hy, -, hmap⟩ := hemits.bounds
    rw [State.noteInput_commitOk]
    cases m with
    | none => exact hs.results.commitOk_none (by omega) K
    | some l =>
      obtain ⟨-, hK, rfl⟩ := hmap l rfl
      exact hs.results.commitOk_some (by omega) (by omega) hs.nMax_lt

theorem State.Inv.of_onlyResultsChange {s t : State} (hs : s.Inv) (hframe : OnlyResultsChange s t)
    (hfaults : FaultsExtend s.modelFaults t.modelFaults) (hres : t.res.Inv s.params.nMax) : t.Inv := by
  rw [hframe]
  exact { hs with results := hres, faults_nodup := hfaults.2 hs.faults_nodup }

theorem State.Inv.withDriver {s : State} (hs : s.Inv) {d : Driver} (hd : d.vars = s.driver.vars) :
    State.Inv { s with driver := d } :=
  { hs with vars_wf := by rw [hd]; exact hs.vars_wf }

theorem State.Inv.accept {s : State} (hs : s.Inv) : s.accept.Inv := { hs with }

theorem State.Inv.advance {s : State} (hs : s.Inv) : s.advance.Inv := hs.withDriver rfl

theorem State.Inv.launch {s done : State} (hs : s.Inv) (hdone : done.Inv) (hparams : done.params = s.params) :
    (s.launch done).Inv := by
  rcases s.launch_cases done with ⟨-, h⟩ | ⟨_, -, h⟩ | ⟨d, later, -, h⟩ <;> rw [h]
  · exact hdone
  · exact { hdone with }
  · exact { hdone with
      results := hparams ▸ hs.results
      flight := by rintro f ⟨⟩; exact ⟨by simp, hdone.results⟩ }

theorem State.Inv.tick {s : State} (hs : s.Inv) : s.tick.Inv := by
  rcases s.tick_cases with ⟨-, h⟩ | ⟨f, hf, -, h⟩ | ⟨f, hf, hlt, h⟩ <;> rw [h]
  · exact hs
  · exact { hs with results := (hs.flight f hf).2, flight := by simp }
  · exact { hs with flight := by rintro g ⟨⟩; exact ⟨Nat.le_sub_one_of_lt hlt, (hs.flight f hf).2⟩ }

theorem State.Inv.submit {s t : State} {w : Word} (hs : s.Inv) (h : s.submit w = .next t) : t.Inv := by
  obtain ⟨done, rfl, hframe, hfaults, hdone⟩ := submit_done h
  have hres : done.res.Inv s.params.nMax := by
    rcases hdone with ⟨i, hi⟩ | ⟨code, rfl⟩
    · exact exec_keeps_results (s := s.accept) hs.accept hi
    · exact hs.results.commitErr code
  exact hs.accept.launch (hs.accept.of_onlyResultsChange hframe hfaults hres) (by rw [hframe])

theorem State.Inv.finishRead {s r : State} (hs : s.Inv) (hr : ReadOf s r) (v : Var) (x : Word) :
    (State.finishRead v (x, r)).Inv := by
  obtain ⟨heq, hfaults⟩ := hr
  have hread : r.Inv := by
    rw [heq]
    exact { hs with faults_nodup := hfaults.2 hs.faults_nodup }
  have hset : (r.setVar v x).Inv := { hread with vars_wf := assignVar_wf hread.vars_wf v x }
  exact hset.advance.tick

/-- Settles O40, by what a step can do (`StepEffect`): each of its cases keeps the invariant. -/
theorem stepKeepsTheInvariant : Obligations.StepKeepsTheInvariant := by
  intro s t hs h
  cases step_effect h with
  | passes d hd => exact (hs.withDriver hd).tick
  | discards line _ _ _ =>
    have hset : s.advance.discardWrite.Inv := { hs.advance with }
    exact hset.tick
  | submits w _ _ submit => exact hs.advance.submit submit
  | setsLength w _ => exact { hs.advance with }
  | storesByte a b _ inside =>
    have hstored : State.Inv { s.advance with inBuf := s.inBuf.write a b } :=
      { hs.advance with
        inBuf_wf := Memory.write_wf hs.inBuf_wf a b
        inBuf_bound := Memory.write_bound hs.inBuf_bound inside }
    exact hstored.tick
  | readsReg off v => exact hs.finishRead (s.readReg_readOf off) v _
  | readsByte sp a v => exact hs.finishRead (s.readByte_readOf sp a) v _
  | resets =>
    exact { hs with
      inBuf_wf := Memory.wf_nil
      inBuf_bound := by simp
      results := Results.reset_inv _
      flight := by simp }

/-! ## The host port -/

theorem step_of_current {s : State} {line : HostLine} (hlegal : s.params.legal = true)
    (hline : s.driver.current = some line) : step s = runLine line s := by
  simp [step, State.runNext, hlegal, hline]

/-- Settles O13: the offsets of the registers are the multiples of 4 below 0x18, and only CMD and IN_LEN take writes. -/
theorem unmappedAndReadOnlyRegisters : Obligations.UnmappedAndReadOnlyRegisters := by
  refine ⟨fun s off hoff => ?_, fun s off w hlegal hcmd hlen hline => ?_⟩
  · unfold State.readReg
    rw [if_neg (by omega), if_neg (by omega), if_neg (by omega), if_neg (by omega), if_neg (by omega)]
  · rw [step_of_current hlegal hline]
    simp only [runLine, State.writeReg, if_neg hcmd, if_neg hlen, State.advance]

theorem State.readResult_idle {s : State} (h : s.busy = false) (stored : Word) : s.readResult stored = (stored, s) := by
  simp [State.readResult, h]

/-- Settles O15: the write is one line on an idle core, and an idle core reads what it holds. -/
theorem lengthAndCountRegisters : Obligations.LengthAndCountRegisters := by
  refine ⟨fun s w hlegal hidle hline => ?_, fun s => rfl, fun s hidle => ?_⟩
  · rw [step_of_current hlegal hline]
    simp [runLine, State.writeReg, hidle]
  · exact ⟨s.readResult_idle hidle _, s.readResult_idle hidle _, s.readResult_idle hidle _⟩

theorem readReg_status_idle {s : State} (h : s.busy = false) : s.readReg 0x04 = (s.statusIdle, s) := by
  simp [State.readReg, h]

theorem toNat_append_eq_add {n m : Nat} (x : BitVec n) (y : BitVec m) :
    (x ++ y).toNat = x.toNat * 2 ^ m + y.toNat := by
  rw [BitVec.toNat_append, ← Nat.shiftLeft_add_eq_or_of_lt y.isLt, Nat.shiftLeft_eq]

/-- STATUS while BUSY = 0 as a number (10_state.md R25). -/
theorem statusIdle_toNat (s : State) : s.statusIdle.toNat =
    s.hz.toNat * 512 + s.res.unc.toNat * 256 + s.res.err.code.toNat * 16 + (schemeCode s.res.scheme).toNat * 4 +
      s.res.cfgValid.toNat * 2 := by
  simp only [State.statusIdle, toNat_append_eq_add, BitVec.toNat_ofBool]
  simp only [BitVec.toNat_ofNat]
  omega

theorem getLsbD_of_toNat {w : Word} {i : Nat} {b : Bool} (h : w.toNat / 2 ^ i % 2 = b.toNat) : w.getLsbD i = b := by
  rw [BitVec.getLsbD, Nat.testBit_eq_decide_div_mod_eq, h]
  cases b <;> rfl

/-- The fields of STATUS while BUSY = 0, cut from its number. -/
theorem statusIdle_fields (s : State) :
    s.statusIdle.toNat / 2 ^ 0 % 2 = false.toNat ∧ s.statusIdle.toNat / 2 ^ 1 % 2 = s.res.cfgValid.toNat ∧
      s.statusIdle.toNat / 4 % 4 = (schemeCode s.res.scheme).toNat ∧
      s.statusIdle.toNat / 16 % 16 = s.res.err.code.toNat ∧ s.statusIdle.toNat / 2 ^ 8 % 2 = s.res.unc.toNat ∧
      s.statusIdle.toNat / 2 ^ 9 % 2 = s.hz.toNat ∧ s.statusIdle.toNat / 2 ^ 10 = 0 := by
  have hcfg := s.res.cfgValid.toNat_lt
  have hscheme := (schemeCode s.res.scheme).isLt
  have herr := s.res.err.code.isLt
  have hunc := s.res.unc.toNat_lt
  have hhz := s.hz.toNat_lt
  rw [statusIdle_toNat, Bool.toNat_false]
  omega

/-- Settles O14: reading STATUS gives `statusIdle`, whose number shows its fields. -/
theorem statusFieldsWhileIdle : Obligations.StatusFieldsWhileIdle := by
  intro s hidle
  obtain ⟨hbusy, hcfg, hscheme, herr, hunc, hhz, habove⟩ := statusIdle_fields s
  rw [readReg_status_idle hidle]
  refine ⟨rfl, getLsbD_of_toNat hbusy, getLsbD_of_toNat hcfg, hscheme.trans ?_, herr.trans ?_, getLsbD_of_toNat hunc,
    getLsbD_of_toNat hhz, habove⟩
  · cases s.res.scheme <;> rfl
  · cases s.res.err <;> rfl

/-- Settles O52: INV by its twelve rows, GOLAY by the walk over the codewords (`golay_of_heavySpan`). -/
theorem defaultMatrixIsGolay : Obligations.DefaultMatrixIsGolay := by
  refine ⟨by decide, ?_, golay_of_heavySpan (by decide +kernel)⟩
  unfold INV
  decide +kernel

end Sys2Proof.Machine
end

section
/-! The memories (spec 20_memory.md): packing and unpacking, the host's accesses to the buffers, and which bytes a command
reads and writes. -/

namespace Sys2Proof.Machine

/-! ## Packing and unpacking -/

theorem bit_eq_getLsbD (b : Byte) {t : Nat} (ht : t < 8) : bit b t = b.getLsbD (7 - t) := by
  simp [bit, BitVec.getMsbD, ht]

theorem getElem?_unpack (B : List Byte) {i t : Nat} (hi : i < B.length) (ht : t < 8) :
    (unpack B)[8 * i + t]? = some (bit B[i] t) := by
  have hlen : 8 * i + t < (unpack B).length := by rw [length_unpack]; omega
  rw [List.getElem?_eq_getElem hlen, ← List.getD_eq_getElem _ false hlen, getD_unpack B hi ht]

theorem getD_eq_dite (y : List Bool) (p : Nat) : y.getD p false = if h : p < y.length then y[p] else false := by
  split
  · next h => exact List.getD_eq_getElem _ _ h
  · next h => exact List.getD_eq_default _ _ (Nat.le_of_not_lt h)

theorem pack_unpack (B : List Byte) : pack (unpack B) = B := by
  have hbytes : ((unpack B).length + 7) / 8 = B.length := by rw [length_unpack]; omega
  refine List.ext_getElem? fun i => ?_
  by_cases hi : i < B.length
  · rw [getElem?_pack _ (by rwa [hbytes]), List.getElem?_eq_getElem hi,
      ofBits_congr fun t ht => getD_unpack B hi ht, ofBits_bit]
  · rw [List.getElem?_eq_none (by rw [length_pack, hbytes]; omega), List.getElem?_eq_none (by omega)]

/-- Settles O48, by the bit of each byte (`getElem?_unpack`, `getElem?_pack`) and byte by byte for the inverse. -/
theorem packAndUnpack : Obligations.PackAndUnpack := by
  refine ⟨fun B i t hi ht => ?_, fun y i t hi ht => ?_, length_pack, fun B => ⟨length_unpack B, pack_unpack B⟩⟩
  · rw [getElem?_unpack B hi ht, bit_eq_getLsbD _ ht]
  · rw [getElem?_pack y hi, Option.map_some, ← bit_eq_getLsbD _ ht, bit_ofBits, ← getD_eq_dite]
    simp [ht]

/-! ## What a host access leaves -/

@[simp] theorem State.tick_driver (s : State) : s.tick.driver = s.driver := by rw [State.tick_eq]

/-- Time passes for the core alike, whatever the host, the model faults and the count of any values are. -/
theorem State.tick_of_sameCore (s : State) (d : Driver) (fs : List ModelFault) (c : Nat) :
    State.tick { s with driver := d, modelFaults := fs, anyCount := c } =
      { s.tick with driver := d, modelFaults := fs, anyCount := c } := by
  cases h : s.inFlight with
  | none => simp [State.tick, h]
  | some f => by_cases hf : f.remaining ≤ 1 <;> simp [State.tick, State.complete, h, hf]

theorem legal_of_step {s t : State} (h : step s = .next t) : s.params.legal = true := by
  by_contra hlegal
  simp [step, hlegal] at h

theorem runLine_readLine (s : State) (sp : Space) (a : Nat) (v : Var) :
    runLine (readLine sp a v) s = .next (State.finishByteRead v (s.readByte sp a)) := by
  cases sp <;> rfl

theorem finishRead_varValue_same (v : Var) (x : Word) (r : State) : (State.finishRead v (x, r)).varValue v = x := by
  simp [State.finishRead, State.varValue, State.setVar]

theorem finishRead_varValue_other {u v : Var} (h : u ≠ v) (x : Word) (r : State) :
    (State.finishRead v (x, r)).varValue u = r.varValue u := by
  simpa [State.finishRead, State.varValue, State.setVar] using varOf_assignVar_other _ h x

@[simp] theorem finishRead_modelFaults (v : Var) (x : Word) (r : State) :
    (State.finishRead v (x, r)).modelFaults = r.modelFaults := by
  simp [State.finishRead]

/-- A read leaves the core as the passing of time alone does (20_memory.md R58). -/
theorem finishRead_core {s r : State} (h : ReadOf s r) (v : Var) (x : Word) :
    { State.finishRead v (x, r) with driver := s.driver, modelFaults := s.modelFaults, anyCount := s.anyCount } =
      s.tick := by
  obtain ⟨heq, -⟩ := h
  have hcore : (r.setVar v x).advance =
      { s with driver := (r.setVar v x).advance.driver, modelFaults := r.modelFaults, anyCount := r.anyCount } := by
    rw [heq]; rfl
  rw [State.finishRead, hcore, State.tick_of_sameCore, State.tick_eq]

/-- Settles O20: a read line is `finishRead` of a state that only the read has touched. -/
theorem readsHaveNoSideEffect : Obligations.ReadsHaveNoSideEffect := by
  intro s t hline h
  rcases hline with ⟨off, v, hline⟩ | ⟨sp, a, v, hline⟩
  · rw [step_of_current (legal_of_step h) hline] at h
    cases h
    exact finishRead_core (s.readReg_readOf off) v _
  · rw [step_of_current (legal_of_step h) hline, runLine_readLine] at h
    cases h
    exact finishRead_core (s.readByte_readOf sp a) v _

/-! ## Host writes of IN_BUF -/

theorem State.writeIn_beyond {s : State} {a : Nat} (h : s.params.nMax ≤ a) (b : Byte) : s.writeIn a b = s := by
  unfold State.writeIn
  rw [if_pos (show s.capacity .inBuf ≤ a from h)]

theorem State.writeIn_inside {s : State} {a : Nat} (hidle : s.busy = false) (h : a < s.params.nMax) (b : Byte) :
    s.writeIn a b = { s with inBuf := s.inBuf.write a b } := by
  unfold State.writeIn
  rw [if_neg (show ¬ s.capacity .inBuf ≤ a from Nat.not_le.2 h), hidle, if_neg Bool.false_ne_true]

theorem State.byteOperand_var_toNat (s : State) (v : Var) :
    (s.byteOperand (.var v)).toNat = (s.varValue v).toNat % 2 ^ 8 := by
  simp [State.byteOperand]

/-- Settles O16: below the capacity the line is one `Memory.write`, and beyond it `writeIn` leaves the machine as it was. -/
theorem inBufWriteStoresByte : Obligations.InBufWriteStoresByte := by
  refine ⟨fun s a x hlegal hidle hline => ?_, fun s b mask v => ⟨rfl, s.byteOperand_var_toNat v, rfl⟩,
    fun s a x hlegal _ hline ha => ?_⟩
  · have hflight : s.inFlight = none := s.idle_iff.1 hidle
    rw [step_of_current hlegal hline, runLine]
    rcases Nat.lt_or_ge a s.params.nMax with ha | ha
    · rw [State.writeIn_inside hidle ha, State.tick_idle (by exact hflight)]
      refine ⟨_, rfl, rfl, fun _ => ⟨Memory.read_write_same _ _ _, fun c hc => Memory.read_write_other _ hc _⟩,
        fun h => absurd ha (Nat.not_lt.2 h)⟩
    · rw [State.writeIn_beyond ha, State.tick_idle (by exact hflight)]
      exact ⟨_, rfl, rfl, fun h => absurd h (Nat.not_lt.2 ha), fun _ => rfl⟩
  · rw [step_of_current hlegal hline, runLine, State.writeIn_beyond ha]
    rfl

/-! ## Host reads of the buffers -/

theorem State.readByte_beyond {s : State} {sp : Space} {a : Nat} (h : s.capacity sp ≤ a) : s.readByte sp a = (0, s) := by
  simp [State.readByte, h]

theorem State.readByte_idle {s : State} {sp : Space} {a : Nat} (hidle : s.busy = false) (h : a < s.capacity sp) :
    s.readByte sp a = (s.byteAt sp a, s.noteRead sp a) := by
  simp [State.readByte, Nat.not_le.2 h, hidle]

theorem State.byteAt_of_held {s : State} {sp : Space} {a : Nat} {b : Byte} (h : (s.mem sp).read a = some b) :
    s.byteAt sp a = b := by
  simp [State.byteAt, h]

theorem State.byteAt_of_missing {s : State} {sp : Space} {a : Nat} (h : (s.mem sp).read a = none) :
    s.byteAt sp a = Config.cellByte s.epoch sp a := by
  simp [State.byteAt, h]

theorem State.noteRead_of_held {s : State} {sp : Space} {a : Nat} {b : Byte} (h : (s.mem sp).read a = some b) :
    s.noteRead sp a = s := by
  simp [State.noteRead, h]

theorem State.readByte_of_held {s : State} {sp : Space} {a : Nat} {b : Byte} (hidle : s.busy = false)
    (ha : a < s.capacity sp) (h : (s.mem sp).read a = some b) : s.readByte sp a = (b, s) := by
  rw [State.readByte_idle hidle ha, State.byteAt_of_held h, State.noteRead_of_held h]

/-- While BUSY = 0 a read is no read of any value. -/
theorem State.readByte_idle_eq {s : State} (hidle : s.busy = false) (sp : Space) (a : Nat) :
    (s.readByte sp a).2 = { s with modelFaults := (s.readByte sp a).2.modelFaults } := by
  rcases Nat.lt_or_ge a (s.capacity sp) with ha | ha
  · rw [State.readByte_idle hidle ha]
    exact s.noteRead_eq sp a
  · rw [State.readByte_beyond ha]

/-- While BUSY = 0 a read line moves the host on and records what the read recorded: no command is there to complete. -/
theorem finishRead_idle_eq {s r : State} (hidle : s.busy = false) (hr : r = { s with modelFaults := r.modelFaults })
    (v : Var) (x : Word) :
    State.finishRead v (x, r) =
      { s with
        driver := { s.driver with pos := s.driver.pos + 1, vars := (State.finishRead v (x, r)).driver.vars }
        modelFaults := (State.finishRead v (x, r)).modelFaults } := by
  have hflight : r.inFlight = none := by rw [hr]; exact s.idle_iff.1 hidle
  rw [State.finishRead, State.tick_idle (by exact hflight), hr]
  rfl

/-- Settles O18: the line is `finishByteRead` of the idle read, which is one of three by the byte's place and value. -/
theorem bufferReadWhileIdle : Obligations.BufferReadWhileIdle := by
  intro s sp a v hlegal hidle hline
  have hread := State.readByte_idle_eq hidle sp a
  rw [step_of_current hlegal hline, runLine_readLine]
  refine ⟨_, rfl, finishRead_idle_eq hidle hread v _, ?_, ?_, ?_, ?_⟩
  · intro u hu
    rw [State.finishByteRead, finishRead_varValue_other hu, hread]
    rfl
  · intro b ha hb
    rw [State.readByte_of_held hidle ha hb]
    exact ⟨finishRead_varValue_same _ _ _, finishRead_modelFaults _ _ _⟩
  · intro ha hnone
    rw [State.readByte_idle hidle ha, State.byteAt_of_missing hnone]
    refine ⟨finishRead_varValue_same _ _ _, fun f => ?_⟩
    rw [State.finishByteRead, finishRead_modelFaults, State.mem_noteRead]
    simp [hnone]
  · intro ha
    rw [State.readByte_beyond ha]
    exact ⟨finishRead_varValue_same _ _ _, finishRead_modelFaults _ _ _⟩

/-- Settles O41: the invariant says that the output holds its bytes and lies within OUT_BUF. -/
theorem outputIsReadableAfterCompletion : Obligations.OutputIsReadableAfterCompletion := by
  intro s a hs hidle ha
  obtain ⟨b, hb⟩ := Option.isSome_iff_exists.1 (hs.results.output_held a ha)
  have hbound : a < 3 * s.params.nMax := hs.results.outBuf_bound (a, b) (mem_of_lookupCell hb)
  exact ⟨b, hb, State.readByte_of_held hidle hbound hb⟩

/-! ## What a command writes and reads -/

theorem Results.commitOk_err (r : Results) (y : List Bool) (K : Nat) (m : Option (List Bool)) :
    (r.commitOk y K m).err = .ok := rfl

theorem toNat_ofNat_of_lt {n : Nat} (h : n < 2 ^ 32) : (BitVec.ofNat 32 n).toNat = n := by
  rw [BitVec.toNat_ofNat, Nat.mod_eq_of_lt h]

theorem Memory.read_writeFrom_zero_beyond (m : Memory) {bs : List Byte} {a : Nat} (h : bs.length ≤ a) :
    (m.writeFrom 0 bs).read a = m.read a := by
  rw [Memory.read_writeFrom, if_neg (by omega)]

theorem Results.commitOk_outBuf_kept (r : Results) {y : List Bool} (hy : (pack y).length < 2 ^ 32) (K : Nat)
    (m : Option (List Bool)) {a : Nat} (ha : (r.commitOk y K m).outLen.toNat ≤ a) :
    (r.commitOk y K m).outBuf.read a = r.outBuf.read a := by
  have hlen : (r.commitOk y K m).outLen.toNat = (pack y).length := toNat_ofNat_of_lt hy
  exact Memory.read_writeFrom_zero_beyond _ (hlen ▸ ha)

theorem Results.commitOk_umap_kept (r : Results) (y : List Bool) {K : Nat} (hK : K < 2 ^ 32) {m : Option (List Bool)}
    (hm : ∀ l, m = some l → l.length = K) {a : Nat} (ha : ((r.commitOk y K m).nblk.toNat + 7) / 8 ≤ a) :
    (r.commitOk y K m).umap.read a = r.umap.read a := by
  have hblocks : (r.commitOk y K m).nblk.toNat = K := toNat_ofNat_of_lt hK
  cases m with
  | none => rfl
  | some l =>
    rw [hblocks] at ha
    exact Memory.read_writeFrom_zero_beyond _ (by rw [length_pack, hm l rfl]; exact ha)

theorem nMax_lt_of_legal {p : Params} (h : p.legal = true) : p.nMax < 2 ^ 29 := by
  simp only [Params.legal, Params.capacityLegal, Bool.and_eq_true, decide_eq_true_eq] at h
  omega

/-- Settles O32: only `commit_ok` writes a buffer, and its lengths fit their registers for every legal capacity. -/
theorem commandWritesOnlyItsOutput : Obligations.CommandWritesOnlyItsOutput := by
  intro i s t hlegal h
  rcases next_of_exists h (exec_cases i s) with
    ⟨_, _, _, _, rfl⟩ | ⟨_, _, _, rfl⟩ | ⟨_, _, _, _, rfl⟩ | ⟨_, hc, y, K, m, hemits, rfl⟩
  · exact ⟨fun a ha => Results.commitOk_outBuf_kept _ (by simp) 0 none ha, fun _ => rfl, fun _ _ => rfl⟩
  · exact ⟨fun _ _ => rfl, fun _ => rfl, fun _ _ => rfl⟩
  · exact ⟨fun _ _ => rfl, fun _ => rfl, fun _ _ => rfl⟩
  · obtain ⟨-, hlen⟩ := hc
    obtain ⟨hy, hK, hmap⟩ := hemits.bounds
    have hcap := nMax_lt_of_legal hlegal
    rw [State.noteInput_commitOk]
    refine ⟨fun a ha => s.res.commitOk_outBuf_kept (by omega) K m ha, fun hi => ?_,
      fun a ha => s.res.commitOk_umap_kept y (by omega) (fun l hl => (hmap l hl).2.2) ha⟩
    cases m with
    | none => rfl
    | some l => exact absurd (hmap l rfl).1 hi

/-- Settles O34: only a successful ENC or DEC reads IN_BUF, and `mem_noteInput` says what it records. -/
theorem commandRecordsExactlyMissingInput : Obligations.CommandRecordsExactlyMissingInput := by
  intro i s t h f
  rcases next_of_exists h (exec_cases i s) with
    ⟨sel, _, rfl, _, rfl⟩ | ⟨sel, rfl, _, rfl⟩ | ⟨_, code, hcode, _, rfl⟩ | ⟨hi, _, y, K, m, _, rfl⟩
  · exact ⟨.inl, fun hf => hf.resolve_right fun ⟨hi, _⟩ => hi sel rfl⟩
  · exact ⟨.inl, fun hf => hf.resolve_right fun ⟨hi, _⟩ => hi sel rfl⟩
  · exact ⟨.inl, fun hf => hf.resolve_right fun ⟨_, herr, _⟩ => hcode herr⟩
  · rw [State.noteInput_commitOk]
    refine (s.mem_noteInput s.inLen.toNat f).trans (or_congr_right ?_)
    exact ⟨fun hread => ⟨hi, Results.commitOk_err _ _ _ _, hread⟩, fun ⟨_, _, hread⟩ => hread⟩

end Sys2Proof.Machine
end

section
/-! The encoding and the host script (spec 30_encoding.md): the decoder read backwards, the host's local lines, and that
every line of a labelled script has an effect. -/

namespace Sys2Proof.Machine

/-! ## The decoder -/

/-- The one word of a command (30_encoding.md R79). -/
def commandWord : Command → Word
  | .cfg sel => assembleWord 0 sel 0 0
  | .enc => assembleWord 0 0 0 1
  | .dec => assembleWord 0 0 0 2

/-- The command an instruction is presented with; its scheme is left to the configuration (30_encoding.md R79). -/
def commandOf : Instr → Command
  | .cfg sel => .cfg sel
  | .noneEnc | .rep3Enc | .golayEnc => .enc
  | .noneDec | .rep3Dec | .golayDec => .dec

theorem commandWord_commandOf (i : Instr) : commandWord (commandOf i) = encode i := by cases i <;> rfl

theorem opcField_cases (w : Word) : opcField w = 0 ∨ opcField w = 1 ∨ opcField w = 2 ∨ opcField w = 3 := by
  generalize opcField w = opc
  revert opc
  decide

theorem decodeWord_commandWord (c : Command) : decodeWord (commandWord c) = .ok c := by
  cases c <;> simp [decodeWord, commandWord]

/-- The word the decoder reads a command from is assembled from the fields it has tested. -/
theorem eq_commandWord_of_decodeWord {w : Word} {c : Command} (h : decodeWord w = .ok c) : w = commandWord c := by
  rw [← assembleWord_fields w]
  unfold decodeWord at h
  split_ifs at h with hrsv1 hrsv0 hopc3 hopc0 hsel hopc1 <;> cases h <;> simp only [not_not] at hrsv1 hrsv0
  · rw [hrsv1, hrsv0, hopc0]; rfl
  · rw [hrsv1, hrsv0, not_not.1 hsel, hopc1]; rfl
  · have hopc2 : opcField w = 2 := by have := opcField_cases w; tauto
    rw [hrsv1, hrsv0, not_not.1 hsel, hopc2]; rfl

theorem decodeWord_eq_ok_iff {w : Word} {c : Command} : decodeWord w = .ok c ↔ w = commandWord c :=
  ⟨eq_commandWord_of_decodeWord, fun h => h ▸ decodeWord_commandWord c⟩

/-- Unconfigured, CFG alone has a row (30_encoding.md R79). -/
theorem wellFormedIn_unconfigured {scheme : Scheme} {i : Instr} :
    i.wellFormedIn false scheme = true ↔ ∃ sel, commandOf i = .cfg sel := by
  cases i <;> simp [Instr.wellFormedIn, commandOf]

theorem encInstr_eq_iff {scheme : Scheme} {i : Instr} :
    encInstr scheme = i ↔ i.wellFormedIn true scheme = true ∧ .enc = commandOf i := by
  cases i <;> cases scheme <;> simp [encInstr, commandOf, Instr.wellFormedIn]

theorem decInstr_eq_iff {scheme : Scheme} {i : Instr} :
    decInstr scheme = i ↔ i.wellFormedIn true scheme = true ∧ .dec = commandOf i := by
  cases i <;> cases scheme <;> simp [decInstr, commandOf, Instr.wellFormedIn]

/-- The configuration selects an instruction for its own command, and only where the instruction's row allows it. -/
theorem selectInstr_eq_ok_iff {cfgValid : Bool} {scheme : Scheme} {c : Command} {i : Instr} :
    selectInstr cfgValid scheme c = .ok i ↔ i.wellFormedIn cfgValid scheme = true ∧ c = commandOf i := by
  cases c with
  | cfg sel => cases i <;> simp [selectInstr, commandOf, Instr.wellFormedIn]
  | enc =>
    cases cfgValid with
    | false => simp +contextual [selectInstr, wellFormedIn_unconfigured]
    | true => simp [selectInstr, encInstr_eq_iff]
  | dec =>
    cases cfgValid with
    | false => simp +contextual [selectInstr, wellFormedIn_unconfigured]
    | true => simp [selectInstr, decInstr_eq_iff]

theorem decode_eq_ok_iff {cfgValid : Bool} {scheme : Scheme} {w : Word} {i : Instr} :
    decode cfgValid scheme w = .ok i ↔ ∃ c, decodeWord w = .ok c ∧ selectInstr cfgValid scheme c = .ok i := by
  unfold decode
  cases decodeWord w <;> simp

/-- Settles O1: both halves of the decoder are inverted, the word's by `decodeWord_eq_ok_iff` and the configuration's by
`selectInstr_eq_ok_iff`. -/
theorem decodeExactlyInvertsEncode : Obligations.DecodeExactlyInvertsEncode := by
  intro cfgValid scheme w i
  simp only [decode_eq_ok_iff, decodeWord_eq_ok_iff, selectInstr_eq_ok_iff]
  constructor
  · rintro ⟨c, rfl, hwf, rfl⟩
    exact ⟨hwf, commandWord_commandOf i⟩
  · rintro ⟨hwf, rfl⟩
    exact ⟨commandOf i, (commandWord_commandOf i).symm, hwf, rfl⟩

/-- 30_encoding.md R80 (a) to (d) on the fields of the word. -/
theorem illegalWord_iff_fields (w : Word) : IllegalWord w ↔
    rsv1Field w ≠ 0 ∨ rsv0Field w ≠ 0 ∨ opcField w = 3 ∨
      ((opcField w = 1 ∨ opcField w = 2) ∧ selField w ≠ 0) := by
  simp only [ne_eq, ← BitVec.toNat_inj, rsv1Field_toNat, rsv0Field_toNat, opcField_toNat, selField_toNat]
  rfl

/-- The tests of `decodeWord` are R80 (a) to (d) one after the other; where all four pass, the word is legal. -/
theorem decodeWord_illegal_iff (w : Word) :
    (∃ form, decodeWord w = .error (.illegal form)) ↔ IllegalWord w := by
  have hopc := opcField_cases w
  rw [illegalWord_iff_fields]
  unfold decodeWord
  split_ifs <;> simp_all

/-- The configuration rejects no command as illegal. -/
theorem selectInstr_not_illegal (cfgValid : Bool) (scheme : Scheme) (c : Command) (form : IllegalForm) :
    selectInstr cfgValid scheme c ≠ .error (.illegal form) := by
  cases c <;> cases cfgValid <;> simp [selectInstr]

theorem decode_illegal_iff {cfgValid : Bool} {scheme : Scheme} {w : Word} {form : IllegalForm} :
    decode cfgValid scheme w = .error (.illegal form) ↔ decodeWord w = .error (.illegal form) := by
  unfold decode
  cases decodeWord w with
  | ok c => simp [selectInstr_not_illegal]
  | error r => simp

/-- Settles O2: legality is a matter of the word alone (`decode_illegal_iff`), and of its fields. -/
theorem wordRejectedAsIllegalExactly : Obligations.WordRejectedAsIllegalExactly := by
  intro cfgValid scheme w
  simp only [decode_illegal_iff, decodeWord_illegal_iff]

/-- Settles O3, by evaluating the decoder on the thirteen words. -/
theorem wordsOfTheTableDecode : Obligations.WordsOfTheTableDecode := by
  unfold Obligations.WordsOfTheTableDecode
  decide

/-! ## The lines of the host script -/

/-- A read puts its word into its variable and moves the host on; nothing else of the host changes. -/
theorem finishRead_driver (v : Var) (x : Word) (r : State) : (State.finishRead v (x, r)).driver =
    { r.driver with pos := r.driver.pos + 1, vars := (State.finishRead v (x, r)).driver.vars } := by
  simp [State.finishRead, State.setVar]

@[simp] theorem State.readReg_driver (s : State) (off : Nat) : (s.readReg off).2.driver = s.driver := by
  rw [State.readReg_eq]

theorem State.readReg_varValue (s : State) (off : Nat) (u : Var) : (s.readReg off).2.varValue u = s.varValue u := by
  simp only [State.varValue, State.readReg_driver]

/-- Settles O17: the line is `finishRead` of the register read, which leaves the host as it was. -/
theorem registerReadReachesItsVariable : Obligations.RegisterReadReachesItsVariable := by
  intro s off v hlegal hline
  refine ⟨_, step_of_current hlegal hline, finishRead_varValue_same v _ _, fun u hu => ?_, ?_⟩
  · exact (finishRead_varValue_other hu (s.readReg off).1 (s.readReg off).2).trans (s.readReg_varValue off u)
  · have hdriver := finishRead_driver v (s.readReg off).1 (s.readReg off).2
    rwa [State.readReg_driver] at hdriver

/-- Bit `b` of a word as a digit of its number; from bit 32 on it is 0. -/
theorem getLsbD_eq_true_iff_toNat (w : Word) (b : Nat) : w.getLsbD b = true ↔ w.toNat / 2 ^ b % 2 = 1 := by
  rw [BitVec.getLsbD, Nat.testBit_eq_decide_div_mod_eq, decide_eq_true_iff]

/-- BRBIT whose label stands on a line of the script (30_encoding.md R90). -/
theorem runLine_brbit {s : State} {l : Label} {p : Nat} (hlabel : findLabel l s.driver.script = some p) (v : Var)
    (b : Nat) : runLine (.brbit v b l) s =
      .next (s.jump (if (s.varValue v).toNat / 2 ^ b % 2 = 1 then p else s.driver.pos + 1)).tick := by
  simp only [runLine, getLsbD_eq_true_iff_toNat, hlabel]
  split_ifs <;> rfl

/-- A host that is halted or past the end of its script idles (log 7). -/
theorem step_of_no_line {s : State} (hlegal : s.params.legal = true) (hnone : s.driver.current = none) :
    step s = .next s.tick := by
  simp [step, State.runNext, hlegal, hnone]

/-- Settles O19: each line by `runLine`, the branch by `runLine_brbit`. -/
theorem hostLocalLines : Obligations.HostLocalLines := by
  intro s hlegal
  refine ⟨fun v b l p hline hlabel => ?_, fun l hline => ?_, fun hline => ?_, fun hnone => ?_⟩
  · exact (step_of_current hlegal hline).trans (runLine_brbit hlabel v b)
  · exact step_of_current hlegal hline
  · exact step_of_current hlegal hline
  · exact step_of_no_line hlegal hnone

/-! ## Nothing stops the machine -/

theorem Driver.mem_script_of_current {d : Driver} {line : HostLine} (h : d.current = some line) : line ∈ d.script := by
  unfold Driver.current at h
  split at h
  · cases h
  · exact List.mem_of_getElem? h

/-- The branch at hand of a labelled script finds its label. -/
theorem Driver.exists_findLabel {d : Driver} (hlabelled : d.labelled = true) {v : Var} {b : Nat} {l : Label}
    (h : d.current = some (.brbit v b l)) : ∃ p, findLabel l d.script = some p :=
  Option.isSome_iff_exists.1 (List.all_eq_true.1 hlabelled _ (Driver.mem_script_of_current h))

theorem State.writeReg_answers (s : State) (off : Nat) (w : Word) : ∃ t, s.writeReg off w = .next t := by
  unfold State.writeReg
  split_ifs
  · exact ⟨_, rfl⟩
  · obtain ⟨done, hsubmit, -⟩ := s.submit_cases w
    exact ⟨_, hsubmit⟩
  all_goals exact ⟨_, rfl⟩

/-- Settles O38: only a CMD write and a branch could stop; the one always answers (`submit_cases`) and the other has its
label (`Driver.exists_findLabel`). -/
theorem stepAnswersNext : Obligations.StepAnswersNext := by
  intro s hlegal hlabelled
  cases hline : s.driver.current with
  | none => exact ⟨_, step_of_no_line hlegal hline⟩
  | some line =>
    rw [step_of_current hlegal hline]
    cases line with
    | wrreg off w => exact s.advance.writeReg_answers off w
    | brbit v b l =>
      obtain ⟨p, hp⟩ := Driver.exists_findLabel hlabelled hline
      exact ⟨_, runLine_brbit hp v b⟩
    | _ => exact ⟨_, rfl⟩

end Sys2Proof.Machine
end

section
/-! The GF(2) datapath (spec 40_gf2_datapath.md): a product bit by bit as an `⊕` over the rows, the products by block matrices,
and from these the encoder `[P | I]` and the syndrome `I` over `P`. -/

namespace Sys2Proof.Machine

/-! ## The sum over GF(2) -/

/-- `⊕_{l=0..m−1} f l`, the sum of R103. -/
def xorSum {m : Nat} (f : Fin m → Bool) : Bool := (List.finRange m).foldl (fun acc l => acc ^^ f l) false

@[simp] theorem xorSum_zero (f : Fin 0 → Bool) : xorSum f = false := rfl

theorem xorSum_succ {m : Nat} (f : Fin (m + 1) → Bool) :
    xorSum f = (xorSum (fun l : Fin m => f l.castSucc) ^^ f (Fin.last m)) := by
  rw [xorSum, List.finRange_succ_last, List.foldl_append, List.foldl_map]
  rfl

@[simp] theorem xorSum_false (m : Nat) : xorSum (fun _ : Fin m => false) = false := by
  induction m with
  | zero => rfl
  | succ m ih => rw [xorSum_succ, ih]; rfl

theorem xorSum_xor {m : Nat} (f g : Fin m → Bool) : xorSum (fun l => f l ^^ g l) = (xorSum f ^^ xorSum g) := by
  induction m with
  | zero => rfl
  | succ m ih => simp only [xorSum_succ, ih, Bool.xor_assoc, Bool.xor_left_comm]

theorem xorSum_add {m n : Nat} (f : Fin (m + n) → Bool) :
    xorSum f = (xorSum (fun l : Fin m => f (l.castAdd n)) ^^ xorSum fun l : Fin n => f (l.natAdd m)) := by
  induction n with
  | zero => simp
  | succ n ih =>
    rw [xorSum_succ, ih, xorSum_succ (m := n), Bool.xor_assoc]
    rfl

/-- A sum with one index that can contribute. -/
theorem xorSum_single {m : Nat} {f : Fin m → Bool} (p : Fin m) (hother : ∀ l, l ≠ p → f l = false) : xorSum f = f p := by
  induction m with
  | zero => exact p.elim0
  | succ m ih =>
    rw [xorSum_succ]
    cases p using Fin.lastCases with
    | last =>
      have hinit : (fun l : Fin m => f l.castSucc) = fun _ => false := funext fun l => hother _ (Fin.castSucc_ne_last l)
      rw [hinit, xorSum_false, Bool.false_xor]
    | cast p =>
      have hlast : f (Fin.last m) = false := hother _ (Fin.castSucc_ne_last p).symm
      rw [hlast, Bool.xor_false]
      exact ih p fun l hl => hother _ fun h => hl (Fin.castSucc_injective m h)

/-! ## The vector-matrix product -/

theorem bit_vecMat {m q : Nat} (v : BitVec m) (M : Matrix2 m q) (j : Nat) :
    bit (vecMat v M) j = xorSum fun l : Fin m => bit v l && bit M[l] j := by
  rw [vecMat, xorSum, ← bit_zero q j]
  refine (List.foldl_hom (bit · j) fun acc l => ?_).symm
  cases bit v l <;> simp

theorem vecMat_xor {m q : Nat} (v w : BitVec m) (M : Matrix2 m q) :
    vecMat (v ^^^ w) M = vecMat v M ^^^ vecMat w M :=
  bit_ext fun j _ => by simp only [bit_xor, bit_vecMat, Bool.and_xor_distrib_right, xorSum_xor]

@[simp] theorem vecMat_zero {m q : Nat} (M : Matrix2 m q) : vecMat 0#m M = 0#q :=
  bit_ext fun j _ => by simp [bit_vecMat]

/-- A unit vector selects its row. -/
@[simp] theorem vecMat_unitVector {q : Nat} (i : Fin 12) (M : Matrix2 12 q) : vecMat (unitVector i) M = M[i] :=
  bit_ext fun j _ => by
    rw [bit_vecMat, xorSum_single i fun l hl => by simp [Fin.val_ne_of_ne hl]]
    simp

/-- `v·I_12 = v`. -/
@[simp] theorem vecMat_identity (v : BV12) : vecMat v (Vector.ofFn unitVector) = v :=
  bit_ext fun j hj => by
    rw [bit_vecMat, xorSum_single ⟨j, hj⟩ fun l hl => by simp [Fin.val_ne_of_ne hl.symm]]
    simp

/-- `v·[A | B] = (v·A) ++ (v·B)`. -/
theorem vecMat_of_rows_append {m p q : Nat} {A : Matrix2 m p} {B : Matrix2 m q} {M : Matrix2 m (p + q)}
    (hrows : ∀ l : Fin m, M[l] = A[l] ++ B[l]) (v : BitVec m) : vecMat v M = vecMat v A ++ vecMat v B :=
  bit_ext fun j _ => by
    rw [bit_append, bit_vecMat]
    simp only [hrows, bit_append]
    split <;> rw [bit_vecMat]

/-- `(v ++ w)` by `A` stacked over `B` is `v·A ⊕ w·B`. -/
theorem vecMat_append {m n q : Nat} (v : BitVec m) (w : BitVec n) (A : Matrix2 m q) (B : Matrix2 n q) :
    vecMat (v ++ w) (A ++ B) = vecMat v A ^^^ vecMat w B :=
  bit_ext fun j _ => by
    rw [bit_xor, bit_vecMat, bit_vecMat, bit_vecMat, xorSum_add]
    simp [bit_append]

/-- Settles O42: bit `j` is the sum `xorSum` (`bit_vecMat`), and the sum is linear. -/
theorem vecMatByFormulaAndLinear : Obligations.VecMatByFormulaAndLinear :=
  fun _ _ M => ⟨fun v j _ => bit_vecMat v M j, fun v w => vecMat_xor v w M⟩

/-! ## The two matrices -/

theorem genMatrix_row (P : Matrix2 12 12) (l : Fin 12) : (genMatrix P)[l] = P[l] ++ unitVector l := by
  simp [genMatrix]

theorem checkMatrix_row_upper (P : Matrix2 12 12) {i : Fin 24} (h : i.val < 12) :
    (checkMatrix P)[i] = unitVector ⟨i, h⟩ :=
  (Vector.getElem_append_left h).trans (Vector.getElem_ofFn h)

theorem checkMatrix_row_lower (P : Matrix2 12 12) {i : Fin 24} (h : ¬i.val < 12) :
    (checkMatrix P)[i] = P[i.val - 12]'(by omega) :=
  Vector.getElem_append_right (xs := Vector.ofFn unitVector) (ys := P) i.isLt (Nat.not_lt.1 h)

/-- Settles O43, by the rows of the two matrices. -/
theorem matricesByEntry : Obligations.MatricesByEntry := by
  intro P
  refine ⟨fun l j => ⟨fun hj => ?_, fun hj _ => ?_⟩, fun i j _ => ?_⟩
  · rw [genMatrix_row, bit_append, if_pos hj]
  · rw [genMatrix_row, bit_append, if_neg (Nat.not_lt.2 hj), bit_unitVector]
  · split <;> rename_i hi
    · rw [checkMatrix_row_upper P hi, bit_unitVector]
      simp only [eq_comm]
    · rw [checkMatrix_row_lower P hi]

/-! ## The encoder and the syndrome -/

theorem golayEncWord_eq (P : Matrix2 12 12) (u : BV12) : golayEncWord P u = vecMat u P ++ u := by
  have hrows : ∀ l : Fin 12, (genMatrix P)[l] = P[l] ++ (Vector.ofFn unitVector)[l] := fun l => by
    rw [genMatrix_row]
    simp
  have hblocks := vecMat_of_rows_append (p := 12) (q := 12) (M := genMatrix P) hrows u
  rwa [vecMat_identity] at hblocks

/-- Settles O44: `[P | I_12]` keeps the data (`golayEncWord_eq`); the word of the example selects row 11 of `P`. -/
theorem wordEncoderIsSystematic : Obligations.WordEncoderIsSystematic := by
  refine ⟨golayEncWord_eq, ?_⟩
  have hunit : 0b000000000001#12 = unitVector 11 := by decide
  rw [golayEncWord_eq, hunit, vecMat_unitVector]
  decide

theorem syndrome_append (P : Matrix2 12 12) (a b : BV12) : syndrome P (a ++ b) = a ^^^ vecMat b P := by
  rw [syndrome, checkMatrix, vecMat_append, vecMat_identity]

theorem syndrome_eq (P : Matrix2 12 12) (r : BV24) : syndrome P r = parityHalf r ^^^ vecMat (dataHalf r) P := by
  rw [← syndrome_append, halves_append]

theorem syndrome_xor (P : Matrix2 12 12) (r e : BV24) : syndrome P (r ^^^ e) = syndrome P r ^^^ syndrome P e :=
  vecMat_xor r e _

/-- Settles O45: the syndrome of two halves is `syndrome_append`, and a unit vector selects its row of `P`. -/
theorem syndromeFromTheHalves : Obligations.SyndromeFromTheHalves := by
  intro P
  refine ⟨syndrome_eq P, fun i => ⟨?_, ?_⟩⟩
  · rw [syndrome_append, vecMat_zero, BitVec.xor_zero]
  · rw [syndrome_append, vecMat_unitVector, BitVec.zero_xor]

@[simp] theorem syndrome_golayEncWord (P : Matrix2 12 12) (u : BV12) : syndrome P (golayEncWord P u) = 0#12 := by
  rw [golayEncWord_eq, syndrome_append, BitVec.xor_self]

theorem syndrome_genMatrix_row (P : Matrix2 12 12) (l : Fin 12) : syndrome P (genMatrix P)[l] = 0#12 := by
  rw [genMatrix_row, syndrome_append, vecMat_unitVector, BitVec.xor_self]

/-- A syndrome of 0 says that the parity half is the parity of the data half. -/
theorem syndrome_eq_zero_iff (P : Matrix2 12 12) (r : BV24) : syndrome P r = 0 ↔ r = golayEncWord P (dataHalf r) := by
  constructor
  · intro h
    have hparity : parityHalf r = vecMat (dataHalf r) P := BitVec.xor_eq_zero_iff.1 (syndrome_eq P r ▸ h)
    rw [golayEncWord_eq, ← hparity, halves_append]
  · intro h
    exact h ▸ syndrome_golayEncWord P (dataHalf r)

/-- Settles O46: rows of `G` and codewords are `(b·P) ++ b`, so both halves of the syndrome cancel; the rest is linearity. -/
theorem syndromeLaws : Obligations.SyndromeLaws := by
  intro P
  refine ⟨syndrome_genMatrix_row P, syndrome_golayEncWord P, fun u e => ?_, syndrome_eq_zero_iff P⟩
  rw [syndrome_xor, syndrome_golayEncWord, BitVec.zero_xor]

/-- Settles O47, by the eight rows of the table of R112. -/
theorem majorityIsAtLeastTwo : Obligations.MajorityIsAtLeastTwo := by
  unfold Obligations.MajorityIsAtLeastTwo
  decide

end Sys2Proof.Machine
end

section
/-! The commands and the None scheme (spec 41_command_and_none.md): CFG, the copying ENC and DEC, and a command's life from
the CMD write to its completion. -/

namespace Sys2Proof.Machine

/-! ## CFG -/

/-- A selector whose number is the code of a scheme names that scheme (30_encoding.md R78). -/
theorem selectorScheme_of_code {sel : BitVec 8} {scheme : Scheme} (h : sel.toNat = (schemeCode scheme).toNat) :
    selectorScheme sel = some scheme := by
  obtain rfl : sel = (schemeCode scheme).setWidth 8 :=
    BitVec.eq_of_toNat_eq (h.trans (BitVec.toNat_setWidth_of_le (by decide)).symm)
  cases scheme <;> rfl

/-- Any other selector names no scheme (30_encoding.md R81). -/
theorem selectorScheme_eq_none {sel : BitVec 8} (h : 3 ≤ sel.toNat) : selectorScheme sel = none := by
  have hne : ∀ k : BitVec 8, k.toNat < 3 → sel ≠ k := by
    rintro _ hk rfl
    omega
  unfold selectorScheme
  rw [if_neg (hne 0 (by decide)), if_neg (hne 1 (by decide)), if_neg (hne 2 (by decide))]

theorem exec_cfg_some {sel : BitVec 8} {scheme : Scheme} (h : selectorScheme sel = some scheme) (s : State) :
    exec (.cfg sel) s = .next ((s.setCodec true scheme).commitOk [] 0 none) := by
  simp only [exec, execCfg, h]

theorem exec_cfg_none {sel : BitVec 8} (h : selectorScheme sel = none) (s : State) :
    exec (.cfg sel) s = .next ((s.setCodec false .passThrough).raiseErr .configError) := by
  simp only [exec, execCfg, h]

/-- Settles O23: the selector decides between `commit_ok` of nothing and the error commit. -/
theorem cfgConfiguresOrReportsConfigError : Obligations.CfgConfiguresOrReportsConfigError := by
  intro sel s
  refine ⟨fun _ scheme hcode => ?_, fun hother => exec_cfg_none (selectorScheme_eq_none hother) s⟩
  have hsel : selectorScheme sel = some scheme := selectorScheme_of_code (hcode.trans (by cases scheme <;> rfl))
  exact exec_cfg_some hsel s

/-! ## The None scheme -/

/-- NONE.ENC and NONE.DEC are one command: the input stream is the output stream, and no block is counted. -/
theorem exec_none {i : Instr} (hi : i = .noneEnc ∨ i = .noneDec) {s : State} (hc : s.configured) :
    exec i s = .next ((s.noteInput s.inLen.toNat).commitOk (unpack (s.inputBytes s.inLen.toNat)) 0 none) := by
  rcases hi with rfl | rfl <;> exact congrArg Host.Outcome.next (State.withLength_of_configured hc _)

/-- Settles O24: what is written is `pack` of `unpack` of the input bytes, the input bytes themselves. -/
theorem noneSchemeCopiesInput : Obligations.NoneSchemeCopiesInput := by
  intro i s hi hc
  refine ⟨_, exec_none hi hc, ?_⟩
  rw [State.noteInput_commitOk]
  refine ⟨rfl, ⟨rfl, rfl⟩, rfl, rfl, rfl, ?_, rfl, rfl, fun a ha => ?_, fun a ha => ?_⟩
  · simp [pack_unpack]
  · simp [pack_unpack, Memory.read_writeFrom, ha, State.inputBytes]
  · simp only [Results.commitOk_none_outBuf, pack_unpack]
    exact Memory.read_writeFrom_zero_beyond _ (by simpa using ha)

/-! ## The acceptance of a command -/

theorem step_of_cmdWrite {s : State} {w : Word} (hlegal : s.params.legal = true) (hidle : s.busy = false)
    (hline : s.driver.current = some (.wrreg 0x00 w)) : step s = s.advance.submit w := by
  rw [step_of_current hlegal hline]
  simp [runLine, State.writeReg, hidle]

theorem State.submit_of_decode {s : State} {w : Word} {i : Instr} (h : decode s.res.cfgValid s.res.scheme w = .ok i) :
    s.submit w = mapNext s.accept.launch (exec i s.accept) := by
  simp only [State.submit, h]

/-- Settles O4: the line is a CMD write on an idle core, and the word decodes. -/
theorem stepRunsDecodedCommand : Obligations.StepRunsDecodedCommand := by
  intro s w i hlegal hidle hline hdecode
  exact (step_of_cmdWrite hlegal hidle hline).trans (State.submit_of_decode hdecode)

/-! ## An instruction does not depend on the durations to come -/

/-- The machine with other durations to come. -/
def State.withTimes (s : State) (ts : List Nat) : State := { s with opTimes := ts }

section

variable (s : State) (ts : List Nat)

theorem State.noteRead_withTimes (sp : Space) (a : Nat) :
    (s.withTimes ts).noteRead sp a = (s.noteRead sp a).withTimes ts := by
  have hmem : (s.withTimes ts).mem sp = s.mem sp := by cases sp <;> rfl
  unfold State.noteRead
  rw [hmem]
  split
  · rfl
  · unfold State.recordFault
    rw [apply_ite (State.withTimes · ts)]
    rfl

theorem State.noteInput_withTimes (n : Nat) : (s.withTimes ts).noteInput n = (s.noteInput n).withTimes ts :=
  List.foldl_hom (State.withTimes · ts) fun u a => u.noteRead_withTimes ts .inBuf a

theorem State.noteInput_commitOk_withTimes (n : Nat) (y : List Bool) (K : Nat) (m : Option (List Bool)) :
    ((s.withTimes ts).noteInput n).commitOk y K m = ((s.noteInput n).commitOk y K m).withTimes ts := by
  rw [State.noteInput_withTimes]
  rfl

theorem State.withLength_withTimes {body body' : Nat → State} (h : ∀ n, body' n = (body n).withTimes ts) :
    (s.withTimes ts).withLength body' = (s.withLength body).withTimes ts := by
  obtain rfl : body' = fun n => (body n).withTimes ts := funext h
  unfold State.withLength
  rw [apply_ite (State.withTimes · ts), apply_ite (State.withTimes · ts)]
  rfl

theorem State.withAligned_withTimes (n : Nat) (code : StatusCode) {body body' : State} (h : body' = body.withTimes ts) :
    (s.withTimes ts).withAligned n code body' = (s.withAligned n code body).withTimes ts := by
  unfold State.withAligned
  rw [h, apply_ite (State.withTimes · ts)]
  rfl

theorem exec_withTimes (i : Instr) :
    exec i (s.withTimes ts) = mapNext (State.withTimes · ts) (exec i s) := by
  have hcommit := s.noteInput_commitOk_withTimes ts
  cases i <;> refine congrArg Host.Outcome.next ?_
  case cfg sel => cases selectorScheme sel <;> rfl
  case noneEnc => exact s.withLength_withTimes ts fun n => hcommit n _ _ _
  case noneDec => exact s.withLength_withTimes ts fun n => hcommit n _ _ _
  case rep3Enc => exact s.withLength_withTimes ts fun n => hcommit n _ _ _
  case rep3Dec => exact s.withLength_withTimes ts fun n => s.withAligned_withTimes ts n _ (hcommit n _ _ _)
  case golayEnc => exact s.withLength_withTimes ts fun n => s.withAligned_withTimes ts n _ (hcommit n _ _ _)
  case golayDec => exact s.withLength_withTimes ts fun n => s.withAligned_withTimes ts n _ (hcommit n _ _ _)

end

/-! ## The life of a command -/

/-- The machine that shows `old` for `n` more host lines and is `done` after them (41_command_and_none.md R122). -/
def State.hiddenFor (done : State) (old : Results) : Nat → State
  | 0 => done
  | n + 1 => { done with res := old, inFlight := some ⟨n + 1, done.res⟩ }

theorem State.hiddenFor_params (done : State) (old : Results) (n : Nat) :
    (done.hiddenFor old n).params = done.params := by cases n <;> rfl

theorem State.hiddenFor_driver (done : State) (old : Results) (n : Nat) :
    (done.hiddenFor old n).driver = done.driver := by cases n <;> rfl

theorem State.launch_withTimes (s done : State) (d : Nat) (later : List Nat) :
    (s.withTimes (d :: later)).launch done = (done.withTimes later).hiddenFor s.res d := by
  cases d <;> rfl

/-- An accepted word has one end state, whatever its duration; the duration says for how long it is hidden. -/
theorem State.submit_withTimes (s : State) (w : Word) (later : List Nat) :
    ∃ done, OnlyResultsChange (s.accept.withTimes later) done ∧
      ∀ d, (s.withTimes (d :: later)).submit w = .next (done.hiddenFor s.res d) := by
  cases hdecode : decode s.res.cfgValid s.res.scheme w with
  | ok i =>
    obtain ⟨t, ht, -⟩ := exec_cases i s.accept
    have hframe : OnlyResultsChange s.accept t := (exec_frame ht).1
    refine ⟨t.withTimes later, by rw [hframe]; rfl, fun d => ?_⟩
    have hexec : exec i (s.withTimes (d :: later)).accept = .next (t.withTimes (d :: later)) := by
      rw [show (s.withTimes (d :: later)).accept = s.accept.withTimes (d :: later) from rfl, exec_withTimes, ht]
      rfl
    rw [State.submit_of_decode (s := s.withTimes (d :: later)) hdecode, hexec]
    exact congrArg Host.Outcome.next (s.accept.launch_withTimes _ d later)
  | error r =>
    refine ⟨(s.accept.raiseErr (rejectCode r)).withTimes later, rfl, fun d => ?_⟩
    rw [State.submit, show decode (s.withTimes (d :: later)).res.cfgValid (s.withTimes (d :: later)).res.scheme w =
      .error r from hdecode]
    exact congrArg Host.Outcome.next (s.accept.launch_withTimes _ d later)

/-- One line of a host that has nothing to do brings the completion one line nearer. -/
theorem step_hiddenFor_succ {done : State} (hlegal : done.params.legal = true) (hidle : done.busy = false)
    (hnone : done.driver.current = none) (old : Results) (n : Nat) :
    step (done.hiddenFor old (n + 1)) = .next (done.hiddenFor old n) := by
  have hflight : done.inFlight = none := done.idle_iff.1 hidle
  rw [step_of_no_line (by rwa [State.hiddenFor_params]) (by rwa [State.hiddenFor_driver])]
  cases n with
  | zero => simp [State.hiddenFor, State.tick, State.complete, ← hflight]
  | succ n => simp [State.hiddenFor, State.tick]

theorem run_succ_of_step {s t : State} (h : step s = .next t) (k : Nat) :
    Host.Core.run core (k + 1) s = Host.Core.run core k t := by
  simp only [Host.Core.run, core, h]

theorem run_hiddenFor {done : State} (hlegal : done.params.legal = true) (hidle : done.busy = false)
    (hnone : done.driver.current = none) (old : Results) (n k : Nat) :
    Host.Core.run core k (done.hiddenFor old (n + k)) = .next (done.hiddenFor old n) := by
  induction k with
  | zero => rfl
  | succ k ih => rw [← Nat.add_assoc, run_succ_of_step (step_hiddenFor_succ hlegal hidle hnone old _), ih]

/-- Settles O8: the CMD write leaves `done` hidden for `d` lines (`State.submit_withTimes`), with `T_OP = 0` for none, and
each line of the host that has nothing to do takes one of them away (`run_hiddenFor`). -/
theorem commandCompletesAfterItsDuration : Obligations.CommandCompletesAfterItsDuration := by
  intro s w d later hlegal hidle htimes hline hlast
  obtain ⟨done, hframe, hsubmit⟩ := s.advance.submit_withTimes w later
  have hdlegal : done.params.legal = true := by rw [hframe]; exact hlegal
  have hdidle : done.busy = false := by rw [hframe]; exact hidle
  have hdnone : done.driver.current = none := by
    rw [hframe]
    simp [Driver.current, State.withTimes, hlast]
  have hstep : step s = .next (done.hiddenFor s.res d) := by
    rw [step_of_cmdWrite hlegal hidle hline, ← State.advance_res, ← hsubmit d, ← htimes]
    rfl
  have hrun (n k : Nat) (hk : n + k = d) : Host.Core.run core (k + 1) s = .next (done.hiddenFor s.res n) := by
    rw [run_succ_of_step hstep, ← hk]
    exact run_hiddenFor hdlegal hdidle hdnone s.res n k
  refine ⟨done, ?_, hdidle, hrun 0 d (Nat.zero_add d), fun k hk hkd => ?_⟩
  · exact (step_of_cmdWrite (s := s.withTimes (0 :: later)) hlegal hidle hline).trans (hsubmit 0)
  · obtain ⟨k, rfl⟩ := Nat.exists_eq_add_one.2 hk
    exact ⟨_, hrun (d - (k + 1) + 1) k (by omega), rfl, rfl⟩

end Sys2Proof.Machine
end

section
/-! The repetition scheme (spec 42_repetition3.md): what the completion of a command without a map leaves, then REP3.ENC and
REP3.DEC bit by bit, the vote by the number of flipped bits, and the round trip. -/

namespace Sys2Proof.Machine

/-! ## The completion of a command without a map -/

/-- `t` is `s` after `commit_ok(y, K, ⊥)` on a stream of `len` whole bytes (41_command_and_none.md R126), as the claims see
it: the result registers, the output bit by bit, and what stays. -/
structure CompletesWith (s t : State) (y : List Bool) (len K : Nat) : Prop where
  frame : OnlyResultsChange s t
  config : ConfigKept s t
  umap : t.res.umap = s.res.umap
  err : t.res.err = .ok
  unc : t.res.unc = false
  uncorrCnt : t.res.uncorrCnt = 0
  outLen : t.res.outLen.toNat = len
  nblk : t.res.nblk.toNat = K
  held : ∀ a < len, t.res.outBuf.holds a
  bits : ∀ p < 8 * len, t.bitAt .outBuf p = y.getD p false
  kept : OutBufKeptFrom len s t

/-- Reading the input and committing `y` completes the command, if the byte and block counts fit their registers. -/
theorem State.noteInput_completesWith (s : State) (n : Nat) {y : List Bool} {len K : Nat} (hy : y.length = 8 * len)
    (hlen : len < 2 ^ 32) (hK : K < 2 ^ 32) : CompletesWith s ((s.noteInput n).commitOk y K none) y len K := by
  have hpack : (pack y).length = len := by rw [length_pack, hy]; omega
  have hbits : ∀ p < 8 * len, ((s.noteInput n).commitOk y K none).bitAt .outBuf p = y.getD p false :=
    fun p hp => State.bitAt_commitOk _ y K none (by rwa [hpack])
  rw [State.noteInput_commitOk] at hbits ⊢
  exact {
    frame := rfl
    config := s.res.commitOk_config y K none
    umap := rfl
    err := rfl
    unc := rfl
    uncorrCnt := rfl
    outLen := by simpa [hpack] using hlen
    nblk := toNat_ofNat_of_lt hK
    held := fun a ha => Memory.holds_writeFrom (pack y) s.res.outBuf (by rwa [hpack])
    bits := hbits
    kept := fun a ha => Memory.read_writeFrom_zero_beyond s.res.outBuf (by rwa [hpack]) }

/-- A command that ends with OK has passed its preamble (41_command_and_none.md R124). -/
theorem State.configured_of_withLength_ok {s : State} {body : Nat → State} (h : (s.withLength body).res.err = .ok) :
    s.configured := by
  rcases s.withLength_cases body with ⟨-, he⟩ | ⟨-, -, he⟩ | ⟨hc, -⟩
  · simp [he] at h
  · simp [he] at h
  · exact hc

/-! ## REP3.ENC and REP3.DEC -/

theorem exec_rep3Enc {s : State} (hc : s.configured) :
    exec .rep3Enc s = .next ((s.noteInput s.inLen.toNat).commitOk
      (rep3Expand (unpack (s.inputBytes s.inLen.toNat))) (8 * s.inLen.toNat) none) :=
  congrArg Host.Outcome.next (State.withLength_of_configured hc _)

theorem configured_of_exec_rep3Enc_ok {s t : State} (h : exec .rep3Enc s = .next t) (hok : t.res.err = .ok) :
    s.configured :=
  State.configured_of_withLength_ok (Host.Outcome.next.inj h ▸ hok)

theorem exec_rep3Dec_aligned {s : State} (hc : s.configured) (h3 : s.inLen.toNat % 3 = 0) :
    exec .rep3Dec s = .next ((s.noteInput s.inLen.toNat).commitOk
      (rep3Vote (unpack (s.inputBytes s.inLen.toNat))) (8 * s.inLen.toNat / 3) none) :=
  congrArg Host.Outcome.next ((State.withLength_of_configured hc _).trans (if_neg (not_not_intro h3)))

theorem exec_rep3Dec_malformed {s : State} (hc : s.configured) (h3 : s.inLen.toNat % 3 ≠ 0) :
    exec .rep3Dec s = .next (s.raiseErr .malformed) :=
  congrArg Host.Outcome.next ((State.withLength_of_configured hc _).trans (if_pos h3))

/-- Settles O25: the output stream is `rep3Expand` of the input stream, `getD_rep3Expand` gives its bits, and `3n` bytes and
`8n` blocks fit their registers for every legal capacity. -/
theorem rep3EncTriplesEveryBit : Obligations.Rep3EncTriplesEveryBit := by
  intro s hlegal hc
  have hlen : s.inLen.toNat < 2 ^ 29 := hc.2.trans_lt (nMax_lt_of_legal hlegal)
  have h := s.noteInput_completesWith s.inLen.toNat (y := rep3Expand (unpack (s.inputBytes s.inLen.toNat)))
    (len := 3 * s.inLen.toNat) (K := 8 * s.inLen.toNat) (by simp; omega) (by omega) (by omega)
  refine ⟨_, exec_rep3Enc hc, h.frame, h.config, h.umap, h.err, h.unc, h.uncorrCnt, h.outLen, h.nblk, h.held,
    fun k hk q hq => ?_, h.kept⟩
  rw [h.bits _ (by omega), getD_rep3Expand _ (by simpa using hk) hq, State.getD_unpack_inputBytes s hk]

/-- Settles O26: the output stream is the vote on the input stream, `rep3Vote_spec` gives its bits; a length that is no
multiple of 3 ends in the error commit. -/
theorem rep3DecVotesOrReportsMalformed : Obligations.Rep3DecVotesOrReportsMalformed := by
  intro s hlegal hc
  refine ⟨fun h3 => ?_, exec_rep3Dec_malformed hc⟩
  have hlen : s.inLen.toNat < 2 ^ 29 := hc.2.trans_lt (nMax_lt_of_legal hlegal)
  obtain ⟨hlength, hvote⟩ := rep3Vote_spec (8 * s.inLen.toNat / 3) (unpack (s.inputBytes s.inLen.toNat))
    (by simp; omega)
  have h := s.noteInput_completesWith s.inLen.toNat (y := rep3Vote (unpack (s.inputBytes s.inLen.toNat)))
    (len := s.inLen.toNat / 3) (K := 8 * s.inLen.toNat / 3) (by omega) (by omega) (by omega)
  refine ⟨_, exec_rep3Dec_aligned hc h3, h.frame, h.config, h.umap, h.err, h.unc, h.uncorrCnt, h.outLen, h.nblk, h.held,
    fun k hk => ?_, h.kept⟩
  rw [h.bits k (by omega), hvote k hk, State.getD_unpack_inputBytes s (by omega),
    State.getD_unpack_inputBytes s (by omega), State.getD_unpack_inputBytes s (by omega)]

/-! ## The vote by the number of flipped bits -/

/-- The majority of a triplet `f` is the bit `x` it was made of, unless two or more of its bits were flipped
(42_repetition3.md R144). -/
theorem maj3_eq_ite_flips (x : Bool) (f : Nat → Bool) :
    maj3 (f 0) (f 1) (f 2) = if (List.range 3).countP (fun q => f q != x) ≤ 1 then x else !x := by
  have hrange : List.range 3 = [0, 1, 2] := rfl
  have hcases : ∀ x a b c : Bool, maj3 a b c = if [a, b, c].countP (· != x) ≤ 1 then x else !x := by decide
  rw [hrange, hcases x]
  simp only [List.countP_cons, List.countP_nil]

/-- Settles O57: each bit of the vote is the majority of its triplet, and `maj3_eq_ite_flips` says which bit that is. -/
theorem voteCorrectsOneFlipPerTriplet : Obligations.VoteCorrectsOneFlipPerTriplet := by
  intro x y hy
  obtain ⟨hlength, hvote⟩ := rep3Vote_spec x.length y hy
  refine ⟨hlength, fun k hk => ?_⟩
  rw [hvote k hk]
  exact maj3_eq_ite_flips (x.getD k false) fun q => y.getD (3 * k + q) false

/-! ## The round trip -/

/-- Two buffers that agree on the eight bits of a byte agree on the byte. -/
theorem State.byteAt_eq_of_bitAt {s t : State} {sp sp' : Space} {a : Nat}
    (h : ∀ i < 8, s.bitAt sp (8 * a + i) = t.bitAt sp' (8 * a + i)) : s.byteAt sp a = t.byteAt sp' a := by
  refine bit_ext fun i hi => ?_
  have hbyte : (8 * a + i) / 8 = a := by omega
  have hbit : (8 * a + i) % 8 = i := by omega
  simpa only [State.bitAt, hbyte, hbit] using h i hi

theorem State.read_eq_byteAt_of_holds {s : State} {sp : Space} {a : Nat} (h : (s.mem sp).holds a) :
    (s.mem sp).read a = some (s.byteAt sp a) := by
  obtain ⟨b, hb⟩ := Option.isSome_iff_exists.1 h
  rw [State.byteAt_of_held hb, hb]

/-- Settles O58: an OK encoder was configured, so O25 gives its output bits; the received triplet of an input bit has at most
one flip, so the majority that O26 gives is that bit, and the bytes agree bit by bit. -/
theorem rep3RoundTripThroughTheCore : Obligations.Rep3RoundTripThroughTheCore := by
  intro s t s' hlegal hexec hok hlegal' hc' hin hflips
  obtain ⟨-, -, -, -, -, -, hlen, -, -, htriple, -⟩ :=
    next_of_exists hexec (rep3EncTriplesEveryBit s hlegal (configured_of_exec_rep3Enc_ok hexec hok))
  have hin' : s'.inLen.toNat = 3 * s.inLen.toNat := by rw [hin, hlen]
  obtain ⟨t', hexec', -, -, -, hok', -, -, hlen', -, hheld, hvote, -⟩ :=
    (rep3DecVotesOrReportsMalformed s' hlegal' hc').1 (by omega)
  have hbit : ∀ k < 8 * s.inLen.toNat, t'.bitAt .outBuf k = s.bitAt .inBuf k := fun k hk => by
    have hcount : (List.range 3).countP (fun q => s'.bitAt .inBuf (3 * k + q) != s.bitAt .inBuf k) ≤ 1 := by
      refine le_of_eq_of_le (List.countP_congr fun q hq => ?_) (hflips k hk)
      rw [htriple k hk q (List.mem_range.1 hq)]
    have hmaj := maj3_eq_ite_flips (s.bitAt .inBuf k) fun q => s'.bitAt .inBuf (3 * k + q)
    rw [if_pos hcount] at hmaj
    exact (hvote k (by omega)).trans hmaj
  refine ⟨t', hexec', hok', BitVec.eq_of_toNat_eq (by omega), fun a ha => ?_⟩
  have hbyte : t'.byteAt .outBuf a = s.byteAt .inBuf a :=
    State.byteAt_eq_of_bitAt fun i hi => hbit (8 * a + i) (by omega)
  rw [← hbyte]
  exact State.read_eq_byteAt_of_holds (sp := .outBuf) (hheld a (by omega))

end Sys2Proof.Machine
end

section
/-! The Golay encoder (spec 43_golay_encoder.md): chunks and codewords as blocks of the buffers, then GOLAY.ENC chunk by
chunk. -/

namespace Sys2Proof.Machine

/-! ## Blocks of the buffers -/

theorem mul_add_lt_mul {w k n t : Nat} (hk : k < n) (ht : t < w) : w * k + t < w * n :=
  calc w * k + t < w * k + w := Nat.add_lt_add_left ht _
    _ = w * (k + 1) := (Nat.mul_succ w k).symm
    _ ≤ w * n := Nat.mul_le_mul_left w hk

/-- The blocks of the input stream are the blocks of IN_BUF. -/
theorem State.blocks_unpack_inputBytes (s : State) {w K n : Nat} (h : w * K ≤ 8 * n) :
    blocks w (unpack (s.inputBytes n)) K = (List.range K).map (s.blockAt .inBuf w) :=
  List.map_congr_left fun _ hk => ofBits_congr fun _ ht =>
    s.getD_unpack_inputBytes ((mul_add_lt_mul (List.mem_range.1 hk) ht).trans_le h)

/-- A command whose output stream is made of the blocks `vs` leaves them as the blocks of OUT_BUF. -/
theorem CompletesWith.blockAt {s t : State} {w len K : Nat} {vs : List (BitVec w)}
    (h : CompletesWith s t (vs.flatMap bitsOf) len K) (hlen : w * vs.length = 8 * len) {k : Nat} (hk : k < vs.length) :
    t.blockAt .outBuf w k = vs[k] :=
  bit_ext fun i hi => by
    rw [State.blockAt, bit_ofBits, decide_eq_true hi, Bool.true_and, h.bits _ (hlen ▸ mul_add_lt_mul hk hi),
      getD_flatMap_const vs _ length_bitsOf hk hi, getD_bitsOf]

/-! ## GOLAY.ENC -/

/-- The chunks of the input (43_golay_encoder.md R150). -/
def State.chunks (s : State) : List BV12 := (List.range (2 * s.inLen.toNat / 3)).map (s.blockAt .inBuf 12)

/-- The codewords of the chunks (43_golay_encoder.md R151). -/
def State.codewords (s : State) : List BV24 := s.chunks.map (golayEncWord s.params.pMatrix)

@[simp] theorem State.length_codewords (s : State) : s.codewords.length = 2 * s.inLen.toNat / 3 := by
  simp [State.codewords, State.chunks]

@[simp] theorem State.getElem_codewords (s : State) {k : Nat} (hk : k < s.codewords.length) :
    s.codewords[k] = golayEncWord s.params.pMatrix (s.blockAt .inBuf 12 k) := by
  simp [State.codewords, State.chunks]

theorem State.chunks_eq_blocks (s : State) :
    s.chunks = blocks 12 (unpack (s.inputBytes s.inLen.toNat)) (2 * s.inLen.toNat / 3) :=
  (s.blocks_unpack_inputBytes (by omega)).symm

theorem State.golayEncStream_inputBytes (s : State) :
    golayEncStream s.params.pMatrix (2 * s.inLen.toNat / 3) (unpack (s.inputBytes s.inLen.toNat)) =
      s.codewords.flatMap bitsOf := by
  rw [golayEncStream, ← s.chunks_eq_blocks, State.codewords, List.flatMap_map]

theorem exec_golayEnc_aligned {s : State} (hc : s.configured) (h3 : s.inLen.toNat % 3 = 0) :
    exec .golayEnc s = .next
      ((s.noteInput s.inLen.toNat).commitOk (s.codewords.flatMap bitsOf) (2 * s.inLen.toNat / 3) none) := by
  have hchunks : 8 * s.inLen.toNat / 12 = 2 * s.inLen.toNat / 3 := by omega
  rw [← s.golayEncStream_inputBytes, ← hchunks]
  exact congrArg Host.Outcome.next ((State.withLength_of_configured hc _).trans (if_neg (not_not_intro h3)))

theorem exec_golayEnc_misaligned {s : State} (hc : s.configured) (h3 : s.inLen.toNat % 3 ≠ 0) :
    exec .golayEnc s = .next (s.raiseErr .alignError) :=
  congrArg Host.Outcome.next ((State.withLength_of_configured hc _).trans (if_pos h3))

/-- An encoder that ends with OK has passed its preamble and its alignment check (60_exceptions.md R182). -/
theorem configured_of_exec_golayEnc_ok {s t : State} (h : exec .golayEnc s = .next t) (hok : t.res.err = .ok) :
    s.configured ∧ s.inLen.toNat % 3 = 0 := by
  have hc : s.configured := State.configured_of_withLength_ok (Host.Outcome.next.inj h ▸ hok)
  refine ⟨hc, by_contra fun h3 => ?_⟩
  obtain rfl : s.raiseErr .alignError = t := Host.Outcome.next.inj ((exec_golayEnc_misaligned hc h3).symm.trans h)
  simp at hok

/-- Settles O27: the output stream is the codewords of the chunks of IN_BUF, and its `2n` bytes and `2n/3` blocks fit their
registers for every legal capacity; a length that is no multiple of 3 ends in the error commit. -/
theorem golayEncEncodesEveryChunk : Obligations.GolayEncEncodesEveryChunk := by
  intro s hlegal hc
  refine ⟨fun h3 => ?_, exec_golayEnc_misaligned hc⟩
  have hlen : s.inLen.toNat < 2 ^ 29 := hc.2.trans_lt (nMax_lt_of_legal hlegal)
  have hbits : 24 * s.codewords.length = 8 * (2 * s.inLen.toNat) := by rw [State.length_codewords]; omega
  have h := s.noteInput_completesWith s.inLen.toNat (y := s.codewords.flatMap bitsOf) (len := 2 * s.inLen.toNat)
    (K := 2 * s.inLen.toNat / 3) ((length_flatMap_const _ _ length_bitsOf).trans hbits) (by omega) (by omega)
  refine ⟨_, exec_golayEnc_aligned hc h3, h.frame, h.config, h.umap, h.err, h.unc, h.uncorrCnt, h.outLen, h.nblk, h.held,
    fun k hk => ?_, h.kept⟩
  rw [h.blockAt hbits (by rwa [State.length_codewords]), State.getElem_codewords]

end Sys2Proof.Machine
end

section
/-! The corrector finds every pattern of weight three or less (spec 44_golay_decoder.md R171, R172), by the facts about weight
and about `P·P = I_12` that this rests on. -/

namespace Sys2Proof.Machine

/-! ## Weight and distance -/

theorem weight_xor_le {n : Nat} (v w : BitVec n) : weight (v ^^^ w) ≤ weight v + weight w := by
  unfold weight
  induction List.range n with
  | nil => simp
  | cons i l ih =>
    have hbit : ∀ a b : Bool,
        (if (a ^^ b) = true then 1 else 0) ≤ (if a = true then 1 else 0) + if b = true then 1 else 0 := by decide
    have := hbit (bit v i) (bit w i)
    simp only [List.countP_cons, bit_xor]
    omega

theorem weight_eq_zero_iff {n : Nat} {v : BitVec n} : weight v = 0 ↔ v = 0#n := by
  refine ⟨fun h => bit_ext fun i hi => ?_, fun h => h ▸ weight_zero n⟩
  rw [bit_zero, ← Bool.not_eq_true]
  exact List.countP_eq_zero.1 h i (List.mem_range.2 hi)

@[simp] theorem weight_unitVector (i : Fin 12) : weight (unitVector i) = 1 := by
  decide +revert

theorem exists_unitVector_of_weight_eq_one {v : BV12} (h : weight v = 1) : ∃ i, v = unitVector i := by
  obtain ⟨i, hi⟩ := List.length_eq_one_iff.1 (List.countP_eq_length_filter.symm.trans h)
  have hmem : ∀ j, j < 12 ∧ bit v j = true ↔ j = i := fun j => by
    rw [← List.mem_singleton (a := j), ← hi, List.mem_filter, List.mem_range]
  refine ⟨⟨i, ((hmem i).2 rfl).1⟩, bit_ext fun j hj => Bool.eq_iff_iff.2 ?_⟩
  simpa [hj] using hmem j

/-! ## Patterns that explain a syndrome -/

/-- `v·A·B` by the matrix whose rows are `A[l]·B`. -/
theorem vecMat_vecMat {m p q : Nat} (v : BitVec m) (A : Matrix2 m p) (B : Matrix2 p q) :
    vecMat (vecMat v A) B = vecMat v (Vector.ofFn fun l : Fin m => vecMat A[l] B) := by
  rw [vecMat.eq_def v A, vecMat.eq_def v (Vector.ofFn _), ← List.foldl_hom (vecMat · B) (g₂ := fun acc (l : Fin m) =>
    if bit v l then acc ^^^ vecMat A[l] B else acc) fun acc l => by cases bit v l <;> simp [vecMat_xor]]
  simp

/-- Under INV, `v·P·P = v`. -/
theorem INV.vecMat_vecMat {P : Matrix2 12 12} (hinv : INV P) (v : BV12) : vecMat (vecMat v P) P = v := by
  rw [Machine.vecMat_vecMat, show (fun l : Fin 12 => vecMat P[l] P) = unitVector from funext hinv, vecMat_identity]

/-- `e` is a pattern of weight at most three with the syndrome `s`. -/
structure Explains (P : Matrix2 12 12) (s : BV12) (e : BV24) : Prop where
  syndrome_eq : syndrome P e = s
  weight_le : weight e ≤ 3

/-- Under GOLAY a syndrome has at most one such pattern: the sum of two is a codeword of weight at most 6. -/
theorem Explains.unique {P : Matrix2 12 12} (hgolay : GOLAY P) {s : BV12} {e e' : BV24} (h : Explains P s e)
    (h' : Explains P s e') : e = e' := by
  have hcode : e ^^^ e' = golayEncWord P (dataHalf (e ^^^ e')) := by
    rw [← syndrome_eq_zero_iff, syndrome_xor, h.syndrome_eq, h'.syndrome_eq]
    exact BitVec.xor_self
  have hdata : dataHalf (e ^^^ e') = 0#12 := by
    by_contra hne
    have hheavy := hgolay _ hne
    rw [← hcode] at hheavy
    have hlight := weight_xor_le e e'
    have := h.weight_le
    have := h'.weight_le
    omega
  rw [hdata, golayEncWord, vecMat_zero] at hcode
  exact BitVec.xor_eq_zero_iff.1 hcode

/-! ## The corrector -/

/-- The steps in order, the first that produces a pattern wins. -/
theorem correct_eq_or (P : Matrix2 12 12) (s : BV12) : correct P s =
    (correctStep2 s).or ((correctStep3 P s).or ((correctStep4 (vecMat s P)).or (correctStep5 P (vecMat s P)))) := by
  unfold correct
  cases correctStep2 s <;> cases correctStep3 P s <;> cases correctStep4 (vecMat s P) <;> rfl

section
variable {P : Matrix2 12 12} {s : BV12} {tag : CorrectorStep} {e : BV24}

theorem correctStep2_explains (h : correctStep2 s = some (tag, e)) : Explains P s e := by
  obtain ⟨hw, rfl, rfl⟩ : weight s ≤ 3 ∧ CorrectorStep.s2 = tag ∧ s ++ 0#12 = e := by simpa [correctStep2] using h
  exact ⟨by simp [syndrome_append], by rw [weight_append, weight_zero]; omega⟩

theorem correctStep3_explains (h : correctStep3 P s = some (tag, e)) : Explains P s e := by
  obtain ⟨i, -, hi⟩ := List.exists_of_findSome?_eq_some h
  obtain ⟨hw, rfl, rfl⟩ : weight (s ^^^ P[i]) ≤ 2 ∧ CorrectorStep.s3 i = tag ∧ (s ^^^ P[i]) ++ unitVector i = e := by
    simpa using hi
  exact ⟨by simp [syndrome_append], by rw [weight_append, weight_unitVector]; omega⟩

theorem correctStep4_explains (hinv : INV P) (h : correctStep4 (vecMat s P) = some (tag, e)) : Explains P s e := by
  obtain ⟨hw, rfl, rfl⟩ : (weight (vecMat s P) = 2 ∨ weight (vecMat s P) = 3) ∧ CorrectorStep.s4 = tag ∧
      0#12 ++ vecMat s P = e := by simpa [correctStep4] using h
  exact ⟨by simp [syndrome_append, hinv.vecMat_vecMat], by rw [weight_append, weight_zero]; omega⟩

theorem correctStep5_explains (hinv : INV P) (h : correctStep5 P (vecMat s P) = some (tag, e)) : Explains P s e := by
  obtain ⟨i, -, hi⟩ := List.exists_of_findSome?_eq_some h
  obtain ⟨hw, rfl, rfl⟩ : weight (vecMat s P ^^^ P[i]) = 2 ∧ CorrectorStep.s5 i = tag ∧
      unitVector i ++ (vecMat s P ^^^ P[i]) = e := by simpa using hi
  refine ⟨?_, by rw [weight_append, weight_unitVector]; omega⟩
  rw [syndrome_append, vecMat_xor, hinv.vecMat_vecMat, hinv i, xor_xor_cancel_comm_assoc]

theorem correct_explains (hinv : INV P) (h : correct P s = some (tag, e)) : Explains P s e := by
  simp only [correct_eq_or, Option.or_eq_some_iff] at h
  rcases h with h | ⟨-, h | ⟨-, h | ⟨-, h⟩⟩⟩
  · exact correctStep2_explains h
  · exact correctStep3_explains h
  · exact correctStep4_explains hinv h
  · exact correctStep5_explains hinv h

end

theorem correctStep2_eq_none_iff {s : BV12} : correctStep2 s = none ↔ 3 < weight s := by simp [correctStep2]

theorem correctStep3_eq_none_iff {P : Matrix2 12 12} {s : BV12} :
    correctStep3 P s = none ↔ ∀ i : Fin 12, 2 < weight (s ^^^ P[i]) := by simp [correctStep3]

theorem correctStep4_eq_none_iff {sp : BV12} : correctStep4 sp = none ↔ weight sp ≠ 2 ∧ weight sp ≠ 3 := by
  simp [correctStep4]

theorem correctStep5_eq_none_iff {P : Matrix2 12 12} {sp : BV12} :
    correctStep5 P sp = none ↔ ∀ i : Fin 12, weight (sp ^^^ P[i]) ≠ 2 := by simp [correctStep5]

theorem correct_eq_none_iff {P : Matrix2 12 12} {s : BV12} : correct P s = none ↔
    3 < weight s ∧ (∀ i : Fin 12, 2 < weight (s ^^^ P[i])) ∧ (weight (vecMat s P) ≠ 2 ∧ weight (vecMat s P) ≠ 3) ∧
      ∀ i : Fin 12, weight (vecMat s P ^^^ P[i]) ≠ 2 := by
  simp only [correct_eq_or, Option.or_eq_none_iff, correctStep2_eq_none_iff, correctStep3_eq_none_iff,
    correctStep4_eq_none_iff, correctStep5_eq_none_iff]

/-- The syndrome of a pattern `a ++ b` of weight at most three passes one of the steps: 2 where `b = 0`, 3 where `b` has weight
1, 4 where `a = 0` and `b` has weight 2 or 3, 5 where `a` has weight 1 and `b` weight 2. -/
theorem correct_ne_none_of_weight_le {P : Matrix2 12 12} (hinv : INV P) {a b : BV12} (hw : weight a + weight b ≤ 3) :
    correct P (a ^^^ vecMat b P) ≠ none := by
  intro hnone
  obtain ⟨h2, h3, h4, h5⟩ := correct_eq_none_iff.1 hnone
  have hsp : vecMat (a ^^^ vecMat b P) P = vecMat a P ^^^ b := by rw [vecMat_xor, hinv.vecMat_vecMat]
  rw [hsp] at h4 h5
  have hcases : weight b = 0 ∨ weight b = 1 ∨ weight a = 0 ∧ (weight b = 2 ∨ weight b = 3) ∨
      weight a = 1 ∧ weight b = 2 := by omega
  rcases hcases with hb | hb | ⟨ha, hb⟩ | ⟨ha, hb⟩
  · rw [weight_eq_zero_iff.1 hb, vecMat_zero, BitVec.xor_zero] at h2
    omega
  · obtain ⟨i, rfl⟩ := exists_unitVector_of_weight_eq_one hb
    have hi := h3 i
    rw [vecMat_unitVector, xor_cancel_right] at hi
    omega
  · rw [weight_eq_zero_iff.1 ha, vecMat_zero, BitVec.zero_xor] at h4
    omega
  · obtain ⟨i, rfl⟩ := exists_unitVector_of_weight_eq_one ha
    have hi := h5 i
    rw [vecMat_unitVector, xor_xor_cancel_comm] at hi
    omega

theorem correct_syndrome_of_weight_le {P : Matrix2 12 12} (hinv : INV P) (hgolay : GOLAY P) {e : BV24}
    (hw : weight e ≤ 3) : ∃ tag, correct P (syndrome P e) = some (tag, e) := by
  have hhalves : weight (parityHalf e) + weight (dataHalf e) ≤ 3 := by rwa [← weight_append, halves_append]
  obtain ⟨⟨tag, e'⟩, hfound⟩ :=
    Option.ne_none_iff_exists'.1 (syndrome_eq P e ▸ correct_ne_none_of_weight_le hinv hhalves)
  obtain rfl := (correct_explains hinv hfound).unique hgolay ⟨rfl, hw⟩
  exact ⟨tag, hfound⟩

@[simp] theorem dataHalf_xor (v w : BV24) : dataHalf (v ^^^ w) = dataHalf v ^^^ dataHalf w := BitVec.extractLsb'_xor

@[simp] theorem dataHalf_golayEncWord (P : Matrix2 12 12) (u : BV12) : dataHalf (golayEncWord P u) = u := by
  rw [golayEncWord_eq, dataHalf_append]

/-- A codeword with at most three flipped bits gives its data block back. -/
theorem golayDecWord_of_weight_le {P : Matrix2 12 12} (hinv : INV P) (hgolay : GOLAY P) {u : BV12} {r : BV24}
    (hw : weight (r ^^^ golayEncWord P u) ≤ 3) : golayDecWord P false r = some u := by
  obtain ⟨e, rfl⟩ : ∃ e, r = golayEncWord P u ^^^ e := ⟨golayEncWord P u ^^^ r, (xor_cancel_left _ _).symm⟩
  have he : weight e ≤ 3 := by rwa [xor_xor_cancel_comm] at hw
  obtain ⟨tag, hfound⟩ := correct_syndrome_of_weight_le hinv hgolay he
  have hsyndrome : syndrome P (golayEncWord P u ^^^ e) = syndrome P e := by
    rw [syndrome_xor, syndrome_golayEncWord, BitVec.zero_xor]
  simp only [golayDecWord, hsyndrome, hfound, recoverData, dataHalf_xor, dataHalf_golayEncWord]
  rw [if_neg (by decide), xor_cancel_right]

end Sys2Proof.Machine
end

section
/-! The round trip of the Golay scheme (spec 43_golay_encoder.md R152): GOLAY.DEC by the received words, and the streams it
puts out where every word is recovered. -/

namespace Sys2Proof.Machine

/-- What GOLAY.DEC makes of each received word (44_golay_decoder.md R160, R169). -/
def State.decodedWords (s : State) : List (Option BV12) :=
  (List.range (s.inLen.toNat / 3)).map fun k =>
    golayDecWord s.params.pMatrix s.params.pCorrLiteral (s.blockAt .inBuf 24 k)

theorem State.golayDecBlocks_inputBytes (s : State) :
    golayDecBlocks s.params.pMatrix s.params.pCorrLiteral (s.inLen.toNat / 3) (unpack (s.inputBytes s.inLen.toNat)) =
      s.decodedWords := by
  rw [golayDecBlocks, s.blocks_unpack_inputBytes (by omega), List.map_map, State.decodedWords]
  rfl

theorem exec_golayDec_aligned {s : State} (hc : s.configured) (h3 : s.inLen.toNat % 3 = 0) :
    exec .golayDec s = .next ((s.noteInput s.inLen.toNat).commitOk (golayDataStream s.decodedWords) (s.inLen.toNat / 3)
      (some (golayMap s.decodedWords))) := by
  rw [← s.golayDecBlocks_inputBytes]
  exact congrArg Host.Outcome.next ((State.withLength_of_configured hc _).trans (if_neg (not_not_intro h3)))

/-- Cutting a stream of whole blocks and joining the blocks gives it back. -/
theorem flatMap_bitsOf_blocks {w K : Nat} {x : List Bool} (hw : 0 < w) (hx : x.length = w * K) :
    (blocks w x K).flatMap bitsOf = x := by
  have hlen : ((blocks w x K).flatMap bitsOf).length = w * K := by
    rw [length_flatMap_const _ _ length_bitsOf, length_blocks]
  refine List.ext_getElem (hlen.trans hx.symm) fun p hp _ => ?_
  rw [hlen] at hp
  have hk : p / w < K := Nat.div_lt_of_lt_mul hp
  rw [← List.getD_eq_getElem _ false, ← List.getD_eq_getElem _ false]
  conv_lhs => rw [← Nat.div_add_mod p w]
  rw [getD_flatMap_const _ _ length_bitsOf (by simpa using hk) (Nat.mod_lt p hw), getD_bitsOf, getElem_blocks w x hk,
    bit_ofBits, decide_eq_true (Nat.mod_lt p hw), Bool.true_and, Nat.div_add_mod]

/-- Blocks that were all recovered: their bits are the stream. -/
theorem golayDataStream_map_some (us : List BV12) : golayDataStream (us.map some) = us.flatMap bitsOf := by
  rw [golayDataStream, List.flatMap_map]
  rfl

/-- Blocks that were all recovered: the map marks none. -/
theorem count_golayMap_map_some (us : List BV12) : (golayMap (us.map some)).count true = 0 := by
  rw [List.count_eq_zero]; simp [golayMap]

theorem Memory.read_writeFrom_zero_inside (m : Memory) {bs : List Byte} {a : Nat} (h : a < bs.length) :
    (m.writeFrom 0 bs).read a = some bs[a] := by
  rw [Memory.read_writeFrom, if_pos (by omega), Nat.sub_zero, List.getElem?_eq_getElem h]

/-- The chunks of an aligned input are all of it. -/
theorem State.flatMap_bitsOf_chunks {s : State} (h3 : s.inLen.toNat % 3 = 0) :
    s.chunks.flatMap bitsOf = unpack (s.inputBytes s.inLen.toNat) := by
  rw [s.chunks_eq_blocks, flatMap_bitsOf_blocks (by omega)]
  rw [length_unpack, State.length_inputBytes]
  omega

/-- Settles O59: an OK encoder was configured, so O27 gives its codewords; each received word is one of them with at most three
flips, so the decoder recovers every chunk of the encoder's input, and the chunks are its bytes. -/
theorem golayRoundTripThroughTheCore : Obligations.GolayRoundTripThroughTheCore := by
  intro s t s' hlegal hinv hgolay hexec hok _ hP hliteral hc' hin hflips
  obtain ⟨hc, h3⟩ := configured_of_exec_golayEnc_ok hexec hok
  obtain ⟨-, -, -, -, -, -, hlen, -, -, hcodewords, -⟩ :=
    next_of_exists hexec ((golayEncEncodesEveryChunk s hlegal hc).1 h3)
  have hin' : s'.inLen.toNat = 2 * s.inLen.toNat := by rw [hin, hlen]
  have hwords : s'.decodedWords = s.chunks.map some := by
    rw [State.decodedWords, State.chunks, List.map_map, hin', hP, hliteral]
    refine List.map_congr_left fun k hk => golayDecWord_of_weight_le hinv hgolay ?_
    rw [← hcodewords k (List.mem_range.1 hk)]
    exact hflips k (List.mem_range.1 hk)
  have hexec' := exec_golayDec_aligned hc' (by omega)
  rw [hwords, golayDataStream_map_some, State.flatMap_bitsOf_chunks h3] at hexec'
  refine ⟨_, hexec', rfl, ?_, ?_, ?_, fun a ha => ?_⟩
  · simp [count_golayMap_map_some]
  · simp [count_golayMap_map_some, uncFlag]
  · simp [pack_unpack]
  · rw [State.commitOk_res, Results.commitOk_some_outBuf, pack_unpack,
      Memory.read_writeFrom_zero_inside _ (by rwa [State.length_inputBytes]), State.getElem_inputBytes s ha]

end Sys2Proof.Machine
end

section
/-! The Golay decoder on one word (spec 44_golay_decoder.md R162 to R175): the search order, what a word decodes to, and that
under INV and GOLAY no choice of the search can be observed and four errors are never corrected. -/

namespace Sys2Proof.Machine

/-! ## The search -/

/-- A search through `0 .. n−1` stops at the least index that gives something. -/
theorem findSome?_finRange_of_least {n : Nat} {α : Type} {f : Fin n → Option α} {i : Fin n} {a : α} (hi : f i = some a)
    (hleast : ∀ j < i, f j = none) : (List.finRange n).findSome? f = some a := by
  obtain ⟨before, after, hsplit⟩ := List.append_of_mem (List.mem_finRange i)
  have hrising := List.pairwise_lt_finRange n
  rw [hsplit, List.pairwise_append] at hrising
  obtain ⟨-, -, hbefore⟩ := hrising
  exact List.findSome?_eq_some_iff.2
    ⟨before, i, after, hsplit, hi, fun j hj => hleast j (hbefore j hj i List.mem_cons_self)⟩

theorem correctStep3_of_least {P : Matrix2 12 12} {s : BV12} {i : Fin 12} (hi : weight (s ^^^ P[i]) ≤ 2)
    (hleast : ∀ j < i, 2 < weight (s ^^^ P[j])) : correctStep3 P s = some (.s3 i, (s ^^^ P[i]) ++ unitVector i) :=
  findSome?_finRange_of_least (if_pos hi) fun j hj => if_neg (Nat.not_le.2 (hleast j hj))

theorem correctStep5_of_least {P : Matrix2 12 12} {sp : BV12} {i : Fin 12} (hi : weight (sp ^^^ P[i]) = 2)
    (hleast : ∀ j < i, weight (sp ^^^ P[j]) ≠ 2) : correctStep5 P sp = some (.s5 i, unitVector i ++ (sp ^^^ P[i])) :=
  findSome?_finRange_of_least (if_pos hi) fun j hj => if_neg (hleast j hj)

/-- Settles O49: the steps are tried in order (`correct_eq_or`), and a search step stops at its least index. -/
theorem correctorSearchOrder : Obligations.CorrectorSearchOrder := by
  intro P s
  refine ⟨fun h2 => ?_, fun h2 => ⟨fun i hi hleast => ?_, fun h3 => ⟨fun h4 => ?_, fun hne2 hne3 =>
    ⟨fun i hi hleast => ?_, fun h5 => correct_eq_none_iff.2 ⟨h2, h3, ⟨hne2, hne3⟩, h5⟩⟩⟩⟩⟩
  · rw [correct_eq_or, correctStep2, if_pos h2, Option.some_or]
  · rw [correct_eq_or, correctStep2_eq_none_iff.2 h2, correctStep3_of_least hi hleast, Option.none_or, Option.some_or]
  · rw [correct_eq_or, correctStep2_eq_none_iff.2 h2, correctStep3_eq_none_iff.2 h3, correctStep4, if_pos h4,
      Option.none_or, Option.none_or, Option.some_or]
  · rw [correct_eq_or, correctStep2_eq_none_iff.2 h2, correctStep3_eq_none_iff.2 h3,
      correctStep4_eq_none_iff.2 ⟨hne2, hne3⟩, correctStep5_of_least hi hleast, Option.none_or, Option.none_or,
      Option.none_or]

/-! ## The recovered block -/

/-- A word decodes to the block recovered with the pattern of its syndrome, or to nothing. -/
theorem golayDecWord_eq_map (P : Matrix2 12 12) (literal : Bool) (r : BV24) :
    golayDecWord P literal r = (correct P (syndrome P r)).map fun found => recoverData literal r found.2 := by
  unfold golayDecWord
  cases correct P (syndrome P r) <;> rfl

theorem golayDecWord_of_correct {P : Matrix2 12 12} {r e : BV24} {tag : CorrectorStep}
    (h : correct P (syndrome P r) = some (tag, e)) (literal : Bool) :
    golayDecWord P literal r = some (recoverData literal r e) := by
  rw [golayDecWord_eq_map, h, Option.map_some]

theorem golayDecWord_eq_none_iff {P : Matrix2 12 12} {literal : Bool} {r : BV24} :
    golayDecWord P literal r = none ↔ correct P (syndrome P r) = none := by
  rw [golayDecWord_eq_map, Option.map_eq_none_iff]

@[simp] theorem recoverData_false (r e : BV24) : recoverData false r e = dataHalf r ^^^ dataHalf e := rfl

@[simp] theorem recoverData_true (r e : BV24) : recoverData true r e = dataHalf r ^^^ parityHalf e := rfl

/-- Settles O50: the block is `recoverData` of the word and its pattern, read bit by bit. -/
theorem dataRecoveredWithItsHalfOfThePattern : Obligations.DataRecoveredWithItsHalfOfThePattern := by
  intro P r
  refine ⟨fun tag e h => ⟨⟨_, golayDecWord_of_correct h false, fun j hj => ?_⟩,
    ⟨_, golayDecWord_of_correct h true, fun j hj => ?_⟩⟩, fun h literal => golayDecWord_eq_none_iff.2 h⟩
  · simp [hj]
  · simp [hj]

/-- Settles O51: every step's pattern explains the syndrome (`correct_explains`), so the corrected word has syndrome 0 and is
the codeword of its data half. -/
theorem everyPatternExplainsItsSyndrome : Obligations.EveryPatternExplainsItsSyndrome := by
  intro P hinv s tag e hfound
  obtain ⟨hsyndrome, hweight⟩ := correct_explains hinv hfound
  refine ⟨hsyndrome, hweight, fun r hr => ⟨(syndrome_eq_zero_iff P _).1 ?_, ?_⟩⟩
  · rw [syndrome_xor, hr, hsyndrome, BitVec.xor_self]
    rfl
  · subst hr
    rw [golayDecWord_of_correct hfound, recoverData_false, dataHalf_xor]

/-! ## Up to three errors -/

theorem syndrome_golayEncWord_xor (P : Matrix2 12 12) (u : BV12) (e : BV24) :
    syndrome P (golayEncWord P u ^^^ e) = syndrome P e := by
  rw [syndrome_xor, syndrome_golayEncWord, BitVec.zero_xor]

/-- Settles O53: the syndrome of the received word is that of the error, which is the one pattern that explains it. -/
theorem upToThreeErrorsAreCorrected : Obligations.UpToThreeErrorsAreCorrected := by
  intro P hinv hgolay u e hweight
  refine ⟨?_, golayDecWord_of_weight_le hinv hgolay (by rwa [xor_xor_cancel_comm])⟩
  rw [syndrome_golayEncWord_xor]
  exact correct_syndrome_of_weight_le hinv hgolay hweight

/-- With at most three flipped bits the block is recovered from the received word and exactly the error. -/
theorem golayDecWord_codeword_xor {P : Matrix2 12 12} (hinv : INV P) (hgolay : GOLAY P) (literal : Bool) (u : BV12)
    {e : BV24} (hweight : weight e ≤ 3) :
    golayDecWord P literal (golayEncWord P u ^^^ e) = some (recoverData literal (golayEncWord P u ^^^ e) e) := by
  obtain ⟨⟨tag, hfound⟩, -⟩ := upToThreeErrorsAreCorrected P hinv hgolay u e hweight
  exact golayDecWord_of_correct hfound literal

/-! ## The literal recovery -/

theorem golayDecWord_true_codeword_xor {P : Matrix2 12 12} (hinv : INV P) (hgolay : GOLAY P) (u : BV12) {e : BV24}
    (hweight : weight e ≤ 3) :
    golayDecWord P true (golayEncWord P u ^^^ e) = some (u ^^^ dataHalf e ^^^ parityHalf e) := by
  rw [golayDecWord_codeword_xor hinv hgolay true u hweight, recoverData_true, dataHalf_xor, dataHalf_golayEncWord]

/-- The two halves of the error cancel exactly where they are equal. -/
theorem golayDecWord_true_eq_data_iff {P : Matrix2 12 12} (hinv : INV P) (hgolay : GOLAY P) (u : BV12) {e : BV24}
    (hweight : weight e ≤ 3) :
    golayDecWord P true (golayEncWord P u ^^^ e) = some u ↔ parityHalf e = dataHalf e := by
  rw [golayDecWord_true_codeword_xor hinv hgolay u hweight, Option.some_inj, BitVec.xor_assoc]
  constructor
  · intro h
    have hcancel : dataHalf e ^^^ parityHalf e = 0#12 := by
      rw [← xor_cancel_left u (dataHalf e ^^^ parityHalf e), h, BitVec.xor_self]
    exact (BitVec.xor_eq_zero_iff.1 hcancel).symm
  · intro h
    rw [h, BitVec.xor_self, BitVec.xor_zero]

/-- A pattern with equal halves has twice the weight of a half. -/
theorem weight_eq_of_halves_eq {e : BV24} (h : parityHalf e = dataHalf e) : weight e = 2 * weight (dataHalf e) := by
  rw [← halves_append e, weight_append, h, dataHalf_append, Nat.two_mul]

/-- Equal halves of weight at most three together are both empty or both one bit. -/
theorem halves_eq_iff {e : BV24} (hweight : weight e ≤ 3) :
    parityHalf e = dataHalf e ↔ e = 0 ∨ ∃ i : Fin 12, e = unitVector i ++ unitVector i := by
  constructor
  · intro h
    have htwice := weight_eq_of_halves_eq h
    rw [← halves_append e, h]
    have hhalf : weight (dataHalf e) = 0 ∨ weight (dataHalf e) = 1 := by omega
    rcases hhalf with hzero | hone
    · left
      rw [weight_eq_zero_iff.1 hzero]
      rfl
    · obtain ⟨i, hi⟩ := exists_unitVector_of_weight_eq_one hone
      exact .inr ⟨i, by rw [hi]⟩
  · rintro (rfl | ⟨i, rfl⟩)
    · rfl
    · rw [parityHalf_append, dataHalf_append]

/-- Settles O56: the corrector finds the error, so the literal recovery adds both its halves to the data; a single error has
unequal halves, since a pattern with equal halves has even weight. -/
theorem literalRecoveryOfThreeErrors : Obligations.LiteralRecoveryOfThreeErrors := by
  intro P hinv hgolay u
  refine ⟨fun e hweight => ⟨golayDecWord_true_codeword_xor hinv hgolay u hweight,
    golayDecWord_true_eq_data_iff hinv hgolay u hweight, halves_eq_iff hweight⟩, fun e hone hdata => ?_,
    fun literal => ?_⟩
  · have htwice := weight_eq_of_halves_eq ((golayDecWord_true_eq_data_iff hinv hgolay u (by omega)).1 hdata)
    omega
  · have h := golayDecWord_codeword_xor hinv hgolay literal u (e := 0#24) (by simp)
    have hhalves : dataHalf 0#24 = 0#12 ∧ parityHalf 0#24 = 0#12 := ⟨rfl, rfl⟩
    cases literal <;> simpa [hhalves] using h

/-! ## Four errors -/

/-- Under GOLAY the only word of syndrome 0 and weight below 8 is 0. -/
theorem eq_zero_of_syndrome_eq_zero {P : Matrix2 12 12} (hgolay : GOLAY P) {c : BV24} (hsyndrome : syndrome P c = 0)
    (hweight : weight c < 8) : c = 0 := by
  have hcode := (syndrome_eq_zero_iff P c).1 hsyndrome
  have hdata : dataHalf c = 0 := by
    by_contra hne
    have hheavy := hgolay _ hne
    rw [← hcode] at hheavy
    omega
  rw [hcode, hdata, golayEncWord]
  exact vecMat_zero _

/-- Settles O55: a pattern the corrector finds weighs at most three and has the syndrome of the error, so its sum with the
error would be 0 and the error would weigh as little. -/
theorem fourErrorsAreAlwaysUncorrectable : Obligations.FourErrorsAreAlwaysUncorrectable := by
  intro P hinv hgolay u e literal hfour
  rw [golayDecWord_eq_none_iff, syndrome_golayEncWord_xor]
  refine Option.eq_none_iff_forall_ne_some.2 fun ⟨tag, e'⟩ hfound => ?_
  obtain ⟨hsyndrome, hlight⟩ := correct_explains hinv hfound
  have hsum : syndrome P (e' ^^^ e) = 0 := by
    rw [syndrome_xor, hsyndrome]
    exact BitVec.xor_self
  have hbound := weight_xor_le e' e
  have hsame : e' = e := BitVec.xor_eq_zero_iff.1 (eq_zero_of_syndrome_eq_zero hgolay hsum (by omega))
  rw [hsame] at hlight
  omega

/-! ## Ties and relaxed weight tests -/

/-- A pattern given by its halves. -/
theorem Explains.of_halves {P : Matrix2 12 12} {s a b : BV12} (hsyndrome : a ^^^ vecMat b P = s)
    (hweight : weight a + weight b ≤ 3) : Explains P s (a ++ b) :=
  ⟨(syndrome_append P a b).trans hsyndrome, (weight_append a b).le.trans hweight⟩

theorem unitVector_injective {i j : Fin 12} (h : unitVector i = unitVector j) : i = j := by
  have hbit := congrArg (bit · i.val) h
  simpa [Fin.ext_iff] using hbit

section
variable {P : Matrix2 12 12} {s : BV12}

theorem explains_of_step3 {i : Fin 12} (hi : weight (s ^^^ P[i]) ≤ 2) :
    Explains P s ((s ^^^ P[i]) ++ unitVector i) :=
  .of_halves (by rw [vecMat_unitVector, xor_cancel_right]) (by rw [weight_unitVector]; omega)

theorem explains_of_step5 (hinv : INV P) {i : Fin 12} (hi : weight (vecMat s P ^^^ P[i]) ≤ 2) :
    Explains P s (unitVector i ++ (vecMat s P ^^^ P[i])) :=
  .of_halves (by rw [vecMat_xor, hinv.vecMat_vecMat, hinv i, xor_xor_cancel_comm_assoc])
    (by rw [weight_unitVector]; omega)

theorem step3_unique (hgolay : GOLAY P) {i j : Fin 12} (hi : weight (s ^^^ P[i]) ≤ 2) (hj : weight (s ^^^ P[j]) ≤ 2) :
    i = j := by
  have hsame := congrArg dataHalf ((explains_of_step3 hi).unique hgolay (explains_of_step3 hj))
  rw [dataHalf_append, dataHalf_append] at hsame
  exact unitVector_injective hsame

theorem step5_unique (hinv : INV P) (hgolay : GOLAY P) {i j : Fin 12} (hi : weight (vecMat s P ^^^ P[i]) ≤ 2)
    (hj : weight (vecMat s P ^^^ P[j]) ≤ 2) : i = j := by
  have hsame := congrArg parityHalf ((explains_of_step5 hinv hi).unique hgolay (explains_of_step5 hinv hj))
  rw [parityHalf_append, parityHalf_append] at hsame
  exact unitVector_injective hsame

/-- A syndrome that steps 2 and 3 leave has `weight(s·P) ≥ 2`: `s·P = 0` makes `s` 0, and a unit vector makes `s` a row of
`P`. -/
theorem two_le_weight_vecMat (hinv : INV P) (h2 : 3 < weight s) (h3 : ∀ i : Fin 12, 2 < weight (s ^^^ P[i])) :
    2 ≤ weight (vecMat s P) := by
  by_contra hlight
  have hs := hinv.vecMat_vecMat s
  have hcases : weight (vecMat s P) = 0 ∨ weight (vecMat s P) = 1 := by omega
  rcases hcases with hzero | hone
  · rw [weight_eq_zero_iff.1 hzero, vecMat_zero] at hs
    rw [← hs, weight_zero] at h2
    omega
  · obtain ⟨i, hi⟩ := exists_unitVector_of_weight_eq_one hone
    rw [hi, vecMat_unitVector] at hs
    have hrow := h3 i
    rw [hs, BitVec.xor_self, weight_zero] at hrow
    omega

/-- The same of step 5's test: `s·P` equal to row `i` makes `s` a unit vector, and one bit away from it makes `s` one bit
away from a row of `P`. -/
theorem two_le_weight_vecMat_xor_row (hinv : INV P) (h2 : 3 < weight s) (h3 : ∀ i : Fin 12, 2 < weight (s ^^^ P[i]))
    (i : Fin 12) : 2 ≤ weight (vecMat s P ^^^ P[i]) := by
  by_contra hlight
  have hs : vecMat (vecMat s P ^^^ P[i]) P = s ^^^ unitVector i := by rw [vecMat_xor, hinv.vecMat_vecMat, hinv i]
  have hcases : weight (vecMat s P ^^^ P[i]) = 0 ∨ weight (vecMat s P ^^^ P[i]) = 1 := by omega
  rcases hcases with hzero | hone
  · rw [weight_eq_zero_iff.1 hzero, vecMat_zero] at hs
    rw [BitVec.xor_eq_zero_iff.1 hs.symm, weight_unitVector] at h2
    omega
  · obtain ⟨j, hj⟩ := exists_unitVector_of_weight_eq_one hone
    rw [hj, vecMat_unitVector] at hs
    have hrow := h3 j
    rw [hs, xor_cancel_left, weight_unitVector] at hrow
    omega

end

/-- The relaxed corrector as an order of steps, step 4 and 5 with their tests relaxed. -/
theorem correctRelaxed_eq_or (P : Matrix2 12 12) (s : BV12) : correctRelaxed P s =
    (correctStep2 s).or ((correctStep3 P s).or
      (if weight (vecMat s P) ≤ 3 then some (.s4, 0#12 ++ vecMat s P)
        else (List.finRange 12).findSome? fun i =>
          if weight (vecMat s P ^^^ P[i]) ≤ 2 then some (.s5 i, unitVector i ++ (vecMat s P ^^^ P[i])) else none)) := by
  unfold correctRelaxed
  cases correctStep2 s <;> cases correctStep3 P s <;> rfl

theorem correctRelaxed_eq_correct {P : Matrix2 12 12} (hinv : INV P) (s : BV12) : correctRelaxed P s = correct P s := by
  rw [correctRelaxed_eq_or, correct_eq_or]
  cases h2 : correctStep2 s with
  | some found => rfl
  | none =>
    cases h3 : correctStep3 P s with
    | some found => rfl
    | none =>
      rw [correctStep2_eq_none_iff] at h2
      rw [correctStep3_eq_none_iff] at h3
      have hstep4 := two_le_weight_vecMat hinv h2 h3
      have hstep5 : ∀ i : Fin 12, weight (vecMat s P ^^^ P[i]) ≤ 2 ↔ weight (vecMat s P ^^^ P[i]) = 2 := fun i => by
        have := two_le_weight_vecMat_xor_row hinv h2 h3 i
        omega
      have htest4 : weight (vecMat s P) ≤ 3 ↔ weight (vecMat s P) = 2 ∨ weight (vecMat s P) = 3 := by omega
      simp only [hstep5, htest4, correctStep4, correctStep5, Option.none_or]
      split <;> rfl

/-- Settles O54: two indices would give two patterns that explain the syndrome; the weights that the relaxed tests add would
have made the syndrome pass step 2 or 3. -/
theorem tieBreakingIsUnobservable : Obligations.TieBreakingIsUnobservable := by
  intro P hinv hgolay
  exact ⟨fun s _ => ⟨fun i j hi hj => step3_unique hgolay hi hj,
    fun _ _ i j hi hj => step5_unique hinv hgolay hi.le hj.le⟩, correctRelaxed_eq_correct hinv⟩

end Sys2Proof.Machine
end

section
/-! GOLAY.DEC on the core (spec 44_golay_decoder.md R169, R170): what the completion of a command with a map leaves, then the
received words one by one, and a word at distance four. -/

namespace Sys2Proof.Machine

/-! ## The completion of a command with a map -/

/-- `t` is `s` after `commit_ok(y, K, m)` with a map `m` (41_command_and_none.md R126), as the claims see it: the result
registers, the `len` output bytes and the map of `K` words bit by bit, and what stays. -/
structure CompletesWithMap (s t : State) (y m : List Bool) (len K : Nat) : Prop where
  frame : OnlyResultsChange s t
  config : ConfigKept s t
  err : t.res.err = .ok
  outLen : t.res.outLen.toNat = len
  nblk : t.res.nblk.toNat = K
  uncorrCnt : t.res.uncorrCnt.toNat = m.count true
  unc : t.res.unc = true ↔ t.res.uncorrCnt ≠ 0
  held : ∀ a < len, t.res.outBuf.holds a
  bits : ∀ p < 8 * len, t.bitAt .outBuf p = y.getD p false
  mapHeld : ∀ a < (K + 7) / 8, t.res.umap.holds a
  mapBits : ∀ p < 8 * ((K + 7) / 8), t.bitAt .umap p = m.getD p false
  kept : OutBufKeptFrom len s t
  mapKept : UmapKeptFrom ((K + 7) / 8) s t

/-- Reading the input and committing `y` with the map `m` completes the command, if the lengths fit their registers. -/
theorem State.noteInput_completesWithMap (s : State) (n : Nat) {y m : List Bool} {len K : Nat}
    (hy : (pack y).length = len) (hm : m.length = K) (hlen : len < 2 ^ 32) (hK : K < 2 ^ 32) :
    CompletesWithMap s ((s.noteInput n).commitOk y K (some m)) y m len K := by
  have hpack : (pack m).length = (K + 7) / 8 := by rw [length_pack, hm]
  have hbits : ∀ p < 8 * len, ((s.noteInput n).commitOk y K (some m)).bitAt .outBuf p = y.getD p false :=
    fun p hp => State.bitAt_commitOk _ y K (some m) (by rwa [hy])
  have hmapBits : ∀ p < 8 * ((K + 7) / 8),
      ((s.noteInput n).commitOk y K (some m)).bitAt .umap p = m.getD p false :=
    fun p hp => State.bitAt_umap_commitOk _ y K m (by rwa [hpack])
  rw [State.noteInput_commitOk] at hbits hmapBits ⊢
  exact {
    frame := rfl
    config := s.res.commitOk_config y K (some m)
    err := rfl
    outLen := (toNat_ofNat_of_lt (hy ▸ hlen)).trans hy
    nblk := toNat_ofNat_of_lt hK
    uncorrCnt := toNat_ofNat_of_lt ((hm ▸ List.count_le_length).trans_lt hK)
    unc := by simp [uncFlag]
    held := fun a ha => Memory.holds_writeFrom (pack y) s.res.outBuf (by rwa [hy])
    bits := hbits
    mapHeld := fun a ha => Memory.holds_writeFrom (pack m) s.res.umap (by rwa [hpack])
    mapBits := hmapBits
    kept := fun a ha => Memory.read_writeFrom_zero_beyond s.res.outBuf (by rwa [hy])
    mapKept := fun a ha => Memory.read_writeFrom_zero_beyond s.res.umap (by rwa [hpack]) }

/-! ## The received words -/

@[simp] theorem State.length_decodedWords (s : State) : s.decodedWords.length = s.inLen.toNat / 3 := by
  simp [State.decodedWords]

@[simp] theorem State.getElem_decodedWords (s : State) {k : Nat} (hk : k < s.decodedWords.length) :
    s.decodedWords[k] = golayDecWord s.params.pMatrix s.params.pCorrLiteral (s.blockAt .inBuf 24 k) := by
  simp [State.decodedWords]

theorem State.count_golayMap_decodedWords (s : State) : (golayMap s.decodedWords).count true =
    (List.range (s.inLen.toNat / 3)).countP (fun k =>
      (golayDecWord s.params.pMatrix s.params.pCorrLiteral (s.blockAt .inBuf 24 k)).isNone) := by
  simp [golayMap, State.decodedWords, List.count, List.countP_map, Function.comp_def]

theorem State.getD_golayMap_decodedWords (s : State) {k : Nat} (hk : k < s.inLen.toNat / 3) :
    (golayMap s.decodedWords).getD k false =
      (golayDecWord s.params.pMatrix s.params.pCorrLiteral (s.blockAt .inBuf 24 k)).isNone := by
  have hk' : k < (golayMap s.decodedWords).length := by rwa [length_golayMap, State.length_decodedWords]
  rw [List.getD_eq_getElem _ _ hk']
  simp [golayMap]

/-- Bit `i` of word `k` in the output stream. -/
theorem State.getD_golayDataStream_decodedWords (s : State) {k i : Nat} (hk : k < s.inLen.toNat / 3) (hi : i < 12) :
    (golayDataStream s.decodedWords).getD (12 * k + i) false =
      bit ((golayDecWord s.params.pMatrix s.params.pCorrLiteral (s.blockAt .inBuf 24 k)).getD 0) i := by
  rw [golayDataStream, getD_flatMap_const _ _ (fun _ => length_bitsOf _) (by rwa [State.length_decodedWords]) hi,
    getD_bitsOf, State.getElem_decodedWords]

theorem exec_golayDec_misaligned {s : State} (hc : s.configured) (h3 : s.inLen.toNat % 3 ≠ 0) :
    exec .golayDec s = .next (s.raiseErr .alignError) :=
  congrArg Host.Outcome.next ((State.withLength_of_configured hc _).trans (if_pos h3))

/-- Settles O28: the output stream is the recovered blocks and the map says which words gave none; the streams' lengths fit
their registers for every legal capacity, and beyond their ends the padding is 0. -/
theorem golayDecDecodesEveryWord : Obligations.GolayDecDecodesEveryWord := by
  intro s hlegal hc
  refine ⟨fun h3 => ?_, exec_golayDec_misaligned hc⟩
  have hcap : s.inLen.toNat < 2 ^ 29 := hc.2.trans_lt (nMax_lt_of_legal hlegal)
  have hdata : (golayDataStream s.decodedWords).length = 4 * s.inLen.toNat := by
    rw [length_golayDataStream, State.length_decodedWords]
    omega
  have hmap : (golayMap s.decodedWords).length = s.inLen.toNat / 3 := by
    rw [length_golayMap, State.length_decodedWords]
  have h := s.noteInput_completesWithMap s.inLen.toNat (y := golayDataStream s.decodedWords)
    (len := (s.inLen.toNat + 1) / 2) (by rw [length_pack, hdata]; omega) hmap (by omega) (by omega)
  refine ⟨_, exec_golayDec_aligned hc h3, h.frame, h.config, h.err, h.outLen, h.nblk,
    h.uncorrCnt.trans s.count_golayMap_decodedWords, h.unc, h.held, fun k hk => bit_ext fun i hi => ?_,
    fun p hend hp => ?_, h.mapHeld, fun k hk => ?_, fun p hend hp => ?_, h.kept, h.mapKept⟩
  · rw [State.blockAt, bit_ofBits, decide_eq_true hi, Bool.true_and, h.bits _ (by omega),
      s.getD_golayDataStream_decodedWords hk hi]
  · rw [h.bits p hp, List.getD_eq_default _ _ (hdata ▸ hend)]
  · rw [h.mapBits k (by omega), s.getD_golayMap_decodedWords hk]
  · rw [h.mapBits p hp, List.getD_eq_default _ _ (hmap ▸ hend)]

/-- Settles O60: the word is a codeword with four flipped bits, so it is uncorrectable, and GOLAY.DEC counts it, marks it in the
map and puts out `0^12` for it. -/
theorem fourErrorsAreReportedByTheCore : Obligations.FourErrorsAreReportedByTheCore := by
  intro s k u hlegal hinv hgolay hc h3 hk hfour
  have hlost : golayDecWord s.params.pMatrix s.params.pCorrLiteral (s.blockAt .inBuf 24 k) = none := by
    rw [← xor_cancel_left (golayEncWord s.params.pMatrix u) (s.blockAt .inBuf 24 k)]
    exact fourErrorsAreAlwaysUncorrectable _ hinv hgolay u _ _ (by rwa [BitVec.xor_comm])
  obtain ⟨t, hexec, -, -, herr, -, -, hcount, hunc, -, hblock, -, -, hmark, -⟩ :=
    (golayDecDecodesEveryWord s hlegal hc).1 h3
  have hpos : 1 ≤ t.res.uncorrCnt.toNat :=
    hcount ▸ List.countP_pos_iff.2 ⟨k, List.mem_range.2 hk, by rw [hlost, Option.isNone_none]⟩
  refine ⟨t, hexec, herr, hunc.2 fun hzero => ?_, hpos, ?_, ?_⟩
  · rw [hzero] at hpos
    exact absurd hpos (by decide)
  · rw [hmark k hk, hlost, Option.isNone_none]
  · rw [hblock k hk, hlost, Option.getD_none]

end Sys2Proof.Machine
end

section
/-! The exceptions (spec 60_exceptions.md): the words that are rejected, the code an instruction leaves, and what a failed
command changes. -/

namespace Sys2Proof.Machine

/-! ## What a failed command changes -/

/-- Settles O31: `exec_cases` leaves two ways to fail, a CFG with CONFIG_ERROR and an ENC or DEC with another code, and both
end in the error commit. -/
theorem failedCommandLeavesOnlyItsCode : Obligations.FailedCommandLeavesOnlyItsCode := by
  intro i s t h hfail
  rcases next_of_exists h (exec_cases i s) with
    ⟨_, _, _, _, rfl⟩ | ⟨_, _, _, rfl⟩ | ⟨_, code, _, hcode, rfl⟩ | ⟨_, _, y, K, m, _, rfl⟩
  · exact absurd rfl hfail
  · exact ⟨rfl, fun hother => absurd rfl hother, fun _ => ⟨rfl, rfl⟩⟩
  · exact ⟨rfl, fun _ => ⟨rfl, rfl⟩, fun hconfig => absurd hconfig hcode⟩
  · exact absurd rfl hfail

/-! ## The length check -/

/-- Every ENC and DEC begins with the preamble of 41_command_and_none.md R124. -/
theorem exec_eq_withLength {i : Instr} (hi : ∀ sel, i ≠ .cfg sel) (s : State) :
    ∃ body, exec i s = .next (s.withLength body) := by
  cases i with
  | cfg sel => exact absurd rfl (hi sel)
  | noneEnc | noneDec | rep3Enc | rep3Dec | golayEnc | golayDec => exact ⟨_, rfl⟩

theorem State.withLength_of_too_long {s : State} (hvalid : s.res.cfgValid = true) (hlong : s.params.nMax < s.inLen.toNat)
    (body : Nat → State) : s.withLength body = s.raiseErr .lengthError := by
  unfold State.withLength
  rw [if_neg (by simp [hvalid]), if_pos hlong]

/-- Settles O29: the preamble stops the command before its body. -/
theorem tooLongInputReportsLengthError : Obligations.TooLongInputReportsLengthError := by
  intro i s hi hvalid hlong
  obtain ⟨body, hbody⟩ := exec_eq_withLength hi s
  rw [hbody, State.withLength_of_too_long hvalid hlong]
  rfl

/-! ## The rejected words -/

theorem State.submit_of_reject {s : State} {w : Word} {r : Reject} (h : decode s.res.cfgValid s.res.scheme w = .error r) :
    s.submit w = .next (s.accept.launch (s.accept.raiseErr (rejectCode r))) := by
  simp only [State.submit, h]

/-- Settles O5: the decoder rejects the word as illegal (`wordRejectedAsIllegalExactly`). -/
theorem illegalWordCompletesWithIllegalCmd : Obligations.IllegalWordCompletesWithIllegalCmd := by
  intro s w hlegal hidle hline hillegal
  obtain ⟨form, hreject⟩ := (wordRejectedAsIllegalExactly s.res.cfgValid s.res.scheme w).2 hillegal
  exact (step_of_cmdWrite hlegal hidle hline).trans (State.submit_of_reject (s := s.advance) hreject)

theorem decode_commandWord (cfgValid : Bool) (scheme : Scheme) (c : Command) :
    decode cfgValid scheme (commandWord c) = selectInstr cfgValid scheme c := by
  unfold decode
  rw [decodeWord_commandWord]

/-- Unconfigured, every command but CFG is rejected (60_exceptions.md R184). -/
theorem selectInstr_unconfigured {c : Command} (hc : ∀ sel, c ≠ .cfg sel) (scheme : Scheme) :
    selectInstr false scheme c = .error .notConfigured := by
  cases c with
  | cfg sel => exact absurd rfl (hc sel)
  | enc | dec => rfl

/-- Settles O6: the two words are those of ENC and DEC, which an unconfigured core rejects. -/
theorem unconfiguredEncDecCompletesWithNotConfigured : Obligations.UnconfiguredEncDecCompletesWithNotConfigured := by
  intro s w hlegal hidle hline hw hunconfigured
  have hreject : decode s.res.cfgValid s.res.scheme w = .error .notConfigured := by
    rw [hunconfigured]
    rcases hw with rfl | rfl
    · exact (decode_commandWord _ _ .enc).trans (selectInstr_unconfigured (by simp) _)
    · exact (decode_commandWord _ _ .dec).trans (selectInstr_unconfigured (by simp) _)
  exact (step_of_cmdWrite hlegal hidle hline).trans (State.submit_of_reject (s := s.advance) hreject)

/-! ## The code an instruction leaves -/

/-- What an instruction reports of an input whose length is no multiple of 3 (60_exceptions.md R182, R183). -/
def misalignedCode : Instr → StatusCode
  | .golayEnc | .golayDec => .alignError
  | .rep3Dec => .malformed
  | .cfg _ | .noneEnc | .noneDec | .rep3Enc => .ok

theorem misalignedCode_encInstr (scheme : Scheme) :
    misalignedCode (encInstr scheme) = if scheme = .golay24 then .alignError else .ok := by
  cases scheme <;> rfl

theorem misalignedCode_decInstr (scheme : Scheme) : misalignedCode (decInstr scheme) =
    if scheme = .golay24 then .alignError else if scheme = .repetition3 then .malformed else .ok := by
  cases scheme <;> rfl

theorem err_of_alignment {o : Host.Outcome State Fault Refusal} {n : Nat} {t u : State}
    (haligned : n % 3 = 0 → o = .next t) (hmisaligned : n % 3 ≠ 0 → o = .next u) :
    ∃ v, o = .next v ∧ v.res.err = if n % 3 ≠ 0 then u.res.err else t.res.err := by
  by_cases h3 : n % 3 = 0
  · exact ⟨t, haligned h3, (if_neg (not_not_intro h3)).symm⟩
  · exact ⟨u, hmisaligned h3, (if_pos h3).symm⟩

/-- On a configured core the alignment of the length decides the code. -/
theorem exec_err_of_configured {i : Instr} (hi : ∀ sel, i ≠ .cfg sel) {s : State} (hc : s.configured) :
    ∃ t, exec i s = .next t ∧ t.res.err = if s.inLen.toNat % 3 ≠ 0 then misalignedCode i else .ok := by
  cases i with
  | cfg sel => exact absurd rfl (hi sel)
  | noneEnc => exact ⟨_, exec_none (.inl rfl) hc, (ite_self _).symm⟩
  | noneDec => exact ⟨_, exec_none (.inr rfl) hc, (ite_self _).symm⟩
  | rep3Enc => exact ⟨_, exec_rep3Enc hc, (ite_self _).symm⟩
  | rep3Dec => exact err_of_alignment (exec_rep3Dec_aligned hc) (exec_rep3Dec_malformed hc)
  | golayEnc => exact err_of_alignment (exec_golayEnc_aligned hc) (exec_golayEnc_misaligned hc)
  | golayDec => exact err_of_alignment (exec_golayDec_aligned hc) (exec_golayDec_misaligned hc)

/-- An ENC or DEC that was selected checks its length against the capacity first, then its alignment. -/
theorem exec_err_of_valid {i : Instr} (hi : ∀ sel, i ≠ .cfg sel) {s : State} (hvalid : s.res.cfgValid = true) :
    ∃ t, exec i s = .next t ∧ t.res.err =
      if s.params.nMax < s.inLen.toNat then .lengthError
      else if s.inLen.toNat % 3 ≠ 0 then misalignedCode i else .ok := by
  by_cases hlong : s.params.nMax < s.inLen.toNat
  · exact ⟨_, tooLongInputReportsLengthError i s hi hvalid hlong, by rw [if_pos hlong]⟩
  · rw [if_neg hlong]
    exact exec_err_of_configured hi ⟨hvalid, Nat.not_lt.1 hlong⟩

theorem exists_schemeCode {n : Nat} (h : n ≤ 2) : ∃ scheme, n = (schemeCode scheme).toNat := by
  interval_cases n
  · exact ⟨.passThrough, rfl⟩
  · exact ⟨.repetition3, rfl⟩
  · exact ⟨.golay24, rfl⟩

/-- CFG reports whether its selector names a scheme (60_exceptions.md R181). -/
theorem exec_cfg_err (sel : BitVec 8) (s : State) :
    ∃ t, exec (.cfg sel) s = .next t ∧ t.res.err = if sel.toNat ≤ 2 then .ok else .configError := by
  by_cases hsel : sel.toNat ≤ 2
  · obtain ⟨scheme, hscheme⟩ := exists_schemeCode hsel
    exact ⟨_, exec_cfg_some (selectorScheme_of_code hscheme) s, by rw [if_pos hsel]; rfl⟩
  · exact ⟨_, exec_cfg_none (selectorScheme_eq_none (by omega)) s, by rw [if_neg hsel]; rfl⟩

/-! ## The code an accepted word leaves -/

theorem State.launch_of_atomic {s : State} (htimes : s.opTimes = []) (done : State) : s.launch done = done := by
  simp only [State.launch, htimes]

section

variable {s : State} {w : Word} (htimes : s.opTimes = [])

include htimes

theorem State.submit_atomic_of_exec {i : Instr} {t : State} (hdecode : decode s.res.cfgValid s.res.scheme w = .ok i)
    (hexec : exec i s.accept = .next t) : s.submit w = .next t := by
  rw [State.submit_of_decode hdecode, hexec, mapNext, State.launch_of_atomic (s := s.accept) htimes]

theorem State.submit_atomic_of_reject {r : Reject} (hdecode : decode s.res.cfgValid s.res.scheme w = .error r) :
    s.submit w = .next (s.accept.raiseErr (rejectCode r)) := by
  rw [State.submit_of_reject hdecode, State.launch_of_atomic (s := s.accept) htimes]

/-- The word of ENC or DEC: the core must be configured, and then the selected instruction `i` reports its code. -/
theorem State.submit_coded {c : Command} (hc : ∀ sel, c ≠ .cfg sel) {i : Instr}
    (hselect : selectInstr true s.res.scheme c = .ok i) :
    ∃ t, s.submit (commandWord c) = .next t ∧ t.res.err =
      if s.res.cfgValid = false then .notConfigured
      else if s.params.nMax < s.inLen.toNat then .lengthError
      else if s.inLen.toNat % 3 ≠ 0 then misalignedCode i else .ok := by
  have hdecode := decode_commandWord s.res.cfgValid s.res.scheme c
  cases hvalid : s.res.cfgValid with
  | false =>
    rw [hvalid, selectInstr_unconfigured hc, ← hvalid] at hdecode
    exact ⟨_, State.submit_atomic_of_reject htimes hdecode, rfl⟩
  | true =>
    have hi : ∀ sel, i ≠ .cfg sel := fun sel h =>
      hc sel ((selectInstr_eq_ok_iff.1 hselect).2.trans (congrArg commandOf h))
    rw [hvalid, hselect, ← hvalid] at hdecode
    obtain ⟨t, ht, herr⟩ := exec_err_of_valid hi (s := s.accept) hvalid
    exact ⟨t, State.submit_atomic_of_exec htimes hdecode ht, herr⟩

end

/-- Without the configuration, a word is rejected for its form alone (30_encoding.md R80). -/
theorem exists_form_of_decodeWord_error {w : Word} {r : Reject} (h : decodeWord w = .error r) :
    ∃ form, r = .illegal form := by
  unfold decodeWord at h
  split_ifs at h <;> cases h <;> exact ⟨_, rfl⟩

theorem illegalWord_or_eq_commandWord (w : Word) : IllegalWord w ∨ ∃ c, w = commandWord c := by
  cases hw : decodeWord w with
  | ok c => exact .inr ⟨c, eq_commandWord_of_decodeWord hw⟩
  | error r =>
    obtain ⟨form, rfl⟩ := exists_form_of_decodeWord_error hw
    exact .inl ((decodeWord_illegal_iff w).1 ⟨form, hw⟩)

theorem commandWord_cfg_toNat (sel : BitVec 8) : (commandWord (.cfg sel)).toNat = sel.toNat * 16 :=
  (assembleWord_toNat 0 sel 0 0).trans (by simp)

/-- Settles O7: an illegal word is rejected first, and any other is the word of a command. CFG reports by its selector
(`exec_cfg_err`), ENC and DEC by the configuration, the length and the alignment (`State.submit_coded`), and under each
scheme `misalignedCode` is what R188 says. -/
theorem statusCodePriority : Obligations.StatusCodePriority := by
  intro s w htimes
  by_cases hillegal : IllegalWord w
  · obtain ⟨form, hreject⟩ := (wordRejectedAsIllegalExactly s.res.cfgValid s.res.scheme w).2 hillegal
    exact ⟨_, State.submit_atomic_of_reject htimes hreject, (if_pos hillegal).symm⟩
  obtain ⟨c, rfl⟩ := (illegalWord_or_eq_commandWord w).resolve_left hillegal
  rw [if_neg hillegal]
  cases c with
  | cfg sel =>
    obtain ⟨t, ht, herr⟩ := exec_cfg_err sel s.accept
    refine ⟨t, State.submit_atomic_of_exec htimes (decode_commandWord _ _ (.cfg sel)) ht, ?_⟩
    have hopc : sel.toNat * 16 % 4 = 0 := by omega
    have hsel : sel.toNat * 16 / 16 % 256 = sel.toNat := by omega
    rw [herr, commandWord_cfg_toNat, if_pos hopc, hsel]
  | enc =>
    obtain ⟨t, ht, herr⟩ := State.submit_coded htimes (c := .enc) (by simp) rfl
    refine ⟨t, ht, herr.trans ?_⟩
    rw [misalignedCode_encInstr, show (commandWord .enc).toNat = 1 from rfl]
    cases s.res.scheme <;> simp
  | dec =>
    obtain ⟨t, ht, herr⟩ := State.submit_coded htimes (c := .dec) (by simp) rfl
    refine ⟨t, ht, herr.trans ?_⟩
    rw [misalignedCode_decInstr, show (commandWord .dec).toNat = 2 from rfl]
    cases s.res.scheme <;> simp

end Sys2Proof.Machine
end

section
/-! Reset and hazards (spec 70_reset_and_hazards.md): the values after reset, the accesses of a host while BUSY = 1, and
the wait loop, which hides the duration of a command. -/

namespace Sys2Proof.Machine

/-! ## Reset -/

/-- Settles O21: no command is in flight after reset, so STATUS is read idle, with every field 0. -/
theorem resetValues : Obligations.ResetValues := by
  refine ⟨?_, rfl, rfl, rfl, rfl, rfl, rfl, rfl, rfl, rfl, rfl, fun sp a => ?_⟩
  · rw [readReg_status_idle rfl]
    exact congrArg (·, State.reset) (by decide)
  · cases sp <;> exact Memory.read_nil a

/-- Settles O22: the line is `State.applyReset`, which names every field of the core. -/
theorem resetFromAnyState : Obligations.ResetFromAnyState := by
  intro s hlegal hline
  exact step_of_current hlegal hline

/-- Settles O39: the parameters are the default ones, and every memory, table and count is empty. -/
theorem resetMeetsTheInvariant : Obligations.ResetMeetsTheInvariant where
  params_legal := by decide
  inBuf_wf := Memory.wf_nil
  inBuf_bound := by simp [State.reset]
  results := Results.reset_inv _
  flight := by simp [State.reset]
  faults_nodup := List.nodup_nil
  vars_wf := ⟨List.Pairwise.nil, by simp [State.reset, Driver.idle]⟩

/-! ## Writes while BUSY = 1 -/

section

variable {s : State} (hbusy : s.busy = true)

include hbusy

theorem State.writeReg_cmd_busy (w : Word) : s.writeReg 0x00 w = .next s.discardWrite.tick := by
  simp [State.writeReg, hbusy]

theorem State.writeReg_inLen_busy (w : Word) : s.writeReg 0x08 w = .next s.discardWrite.tick := by
  simp [State.writeReg, hbusy]

theorem State.writeIn_busy {a : Nat} (ha : a < s.params.nMax) (b : Byte) : s.writeIn a b = s.discardWrite := by
  unfold State.writeIn
  rw [if_neg (show ¬ s.capacity .inBuf ≤ a from Nat.not_le.2 ha), if_pos hbusy]

end

/-- Settles O10: the port discards each of the three writes, and the line moves the host on. -/
theorem writesWhileBusyOnlySetHazard : Obligations.WritesWhileBusyOnlySetHazard := by
  intro s line hlegal hbusy hline hwrite
  rw [step_of_current hlegal hline]
  rcases hwrite with ⟨w, rfl⟩ | ⟨w, rfl⟩ | ⟨a, x, rfl, ha⟩
  · exact State.writeReg_cmd_busy (s := s.advance) hbusy w
  · exact State.writeReg_inLen_busy (s := s.advance) hbusy w
  · rw [runLine, State.writeIn_busy hbusy ha]
    rfl

/-! ## Reads while BUSY = 1 -/

/-- The fields of STATUS while BUSY = 1, by the parts it is put together from. -/
theorem statusBusy_fields (s : State) (any : Word) :
    (s.statusBusy any).getLsbD 0 = true ∧ (s.statusBusy any).getLsbD 9 = s.hz ∧
      (∀ b, 1 ≤ b → b ≤ 8 → (s.statusBusy any).getLsbD b = any.getLsbD b) ∧
      ∀ b, 10 ≤ b → (s.statusBusy any).getLsbD b = false := by
  simp only [State.statusBusy, BitVec.getLsbD_append, BitVec.getLsbD_extractLsb', BitVec.getLsbD_ofBool]
  refine ⟨rfl, by simp, fun b h1 h8 => ?_, fun b h10 => ?_⟩
  · rw [if_neg (by omega), if_pos (by omega), decide_eq_true (by omega), Bool.true_and, Nat.add_sub_cancel' h1]
  · rw [if_neg (by omega), if_neg (by omega), if_neg (by omega), BitVec.getLsbD_zero]

section

variable {s : State} (hbusy : s.busy = true)

include hbusy

theorem readReg_status_busy : s.readReg 0x04 =
    (s.statusBusy (Config.busyWord s.anyCount), { s with anyCount := s.anyCount + 1 }) := by
  simp [State.readReg, hbusy]

theorem State.readResult_busy (stored : Word) : (s.readResult stored).1 = Config.busyWord s.anyCount := by
  simp [State.readResult, hbusy]

/-- A byte of OUT_BUF or UMAP is read as any value, and noted as any other read is. -/
theorem State.readByte_busy {sp : Space} {a : Nat} (hsp : sp ≠ .inBuf) (ha : a < s.capacity sp) : s.readByte sp a =
    (Config.busyByte s.anyCount, { s.noteRead sp a with anyCount := s.anyCount + 1 }) := by
  simp [State.readByte, Nat.not_le.2 ha, hbusy, hsp]

end

/-- A byte of IN_BUF is read alike whether BUSY is 0 or 1. -/
theorem State.readByte_inBuf {s : State} {a : Nat} (ha : a < s.params.nMax) :
    s.readByte .inBuf a = (s.byteAt .inBuf a, s.noteRead .inBuf a) := by
  have hcap : ¬ s.capacity .inBuf ≤ a := Nat.not_le.2 ha
  simp [State.readByte, hcap]

theorem State.readByte_varValue (s : State) (sp : Space) (a : Nat) (u : Var) :
    (s.readByte sp a).2.varValue u = s.varValue u := by
  rw [State.readByte_eq]
  rfl

/-- Settles O12: `statusBusy_fields` gives the bits of STATUS, and each other read is one of those above. -/
theorem readsWhileBusy : Obligations.ReadsWhileBusy := by
  intro s hbusy
  refine ⟨?_, ?_, rfl, ?_, fun sp a ha => State.readByte_beyond ha, ?_, ?_, ?_, ?_⟩
  · rw [readReg_status_busy hbusy]
    exact statusBusy_fields s _
  · rintro off (rfl | rfl | rfl) <;> exact State.readResult_busy hbusy _
  · rintro off (rfl | hunmapped)
    · rfl
    · exact unmappedAndReadOnlyRegisters.1 s off hunmapped
  · intro a b ha hb
    rw [State.readByte_inBuf ha, State.byteAt_of_held (sp := .inBuf) hb, State.noteRead_of_held (sp := .inBuf) hb]
  · intro a ha hnone
    rw [State.readByte_inBuf ha, State.byteAt_of_missing (sp := .inBuf) hnone]
    refine ⟨rfl, fun f => (State.mem_noteRead s .inBuf a f).trans ?_⟩
    simp [State.mem, hnone]
  · intro sp a hsp ha
    rw [State.readByte_busy hbusy (by rintro rfl; simp at hsp) ha]
    exact ⟨rfl, State.mem_noteRead s sp a⟩
  · intro sp a v hlegal hline
    refine ⟨_, (step_of_current hlegal hline).trans (runLine_readLine s sp a v), finishRead_varValue_same v _ _,
      fun u hu => ?_⟩
    exact (finishRead_varValue_other hu _ (s.readByte sp a).2).trans (s.readByte_varValue sp a u)

/-! ## A variable assigned twice -/

theorem putCell_putCell {w : Nat} (a : Nat) (x y : BitVec w) (m : List (Nat × BitVec w)) :
    putCell a y (putCell a x m) = putCell a y m := by
  induction m with
  | nil => simp [putCell]
  | cons c m ih =>
    simp only [putCell]
    split_ifs with hlt heq
    · simp [putCell]
    · simp [putCell]
    · simp [putCell, hlt, heq, ih]

theorem dropCell_putCell {w : Nat} (a : Nat) (x : BitVec w) (m : List (Nat × BitVec w)) :
    dropCell a (putCell a x m) = dropCell a m := by
  induction m with
  | nil => simp [putCell, dropCell]
  | cons c m ih =>
    simp only [putCell]
    split_ifs with hlt heq
    · simp [dropCell]
    · simp [dropCell, heq]
    · simp [dropCell, heq, ih]

/-- A word other than 0 leaves no trace in the table once its variable is assigned again. -/
theorem assignVar_assignVar (vars : List (Nat × Word)) (v : Var) {x : Word} (hx : x ≠ 0) (y : Word) :
    assignVar (assignVar vars v x) v y = assignVar vars v y := by
  unfold assignVar
  rw [if_neg hx, dropCell_putCell, putCell_putCell]

/-! ## The wait loop, line by line -/

theorem Driver.halted_of_current {d : Driver} {line : HostLine} (h : d.current = some line) : d.halted = false := by
  cases hhalted : d.halted with
  | false => rfl
  | true => simp [Driver.current, hhalted] at h

/-- An idle core and a running host whose script has the expansion of WAIT at line `p` (30_encoding.md R91). -/
structure State.Waits (s : State) (p N : Nat) : Prop where
  legal : s.params.legal = true
  idle : s.busy = false
  running : s.driver.halted = false
  label : s.driver.script[p]? = some (.label (.wait N))
  read : s.driver.script[p + 1]? = some (.rdreg 0x04 Var.scratch)
  branch : s.driver.script[p + 2]? = some (.brbit Var.scratch 0 (.wait N))
  target : findLabel (.wait N) s.driver.script = some p

section

variable (s : State) (old : Results) (n : Nat)

theorem State.advance_hiddenFor : (s.hiddenFor old n).advance = s.advance.hiddenFor old n := by cases n <;> rfl

theorem State.jump_hiddenFor (q : Nat) : (s.hiddenFor old n).jump q = (s.jump q).hiddenFor old n := by cases n <;> rfl

theorem State.varValue_hiddenFor (v : Var) : (s.hiddenFor old n).varValue v = s.varValue v := by cases n <;> rfl

end

section

variable {s : State} {p N : Nat}

theorem State.tick_hiddenFor (hidle : s.busy = false) (old : Results) (n : Nat) :
    (s.hiddenFor old n).tick = s.hiddenFor old (n - 1) := by
  have hflight : s.inFlight = none := s.idle_iff.1 hidle
  match n with
  | 0 => exact State.tick_idle hflight
  | 1 => simp [State.hiddenFor, State.tick, State.complete, ← hflight]
  | n + 2 => simp [State.hiddenFor, State.tick]

/-- A line of the wait loop is run on the machine that hides the command. -/
theorem State.Waits.step_hiddenFor (h : s.Waits p N) {line : HostLine}
    (hline : s.driver.script[s.driver.pos]? = some line) (old : Results) (n : Nat) :
    step (s.hiddenFor old n) = runLine line (s.hiddenFor old n) := by
  refine step_of_current (by rw [State.hiddenFor_params]; exact h.legal) ?_
  simp [State.hiddenFor_driver, Driver.current, h.running, hline]

theorem State.Waits.step_label (h : s.Waits p N) (hpos : s.driver.pos = p) (old : Results) (n : Nat) :
    step (s.hiddenFor old n) = .next (s.advance.hiddenFor old (n - 1)) := by
  rw [h.step_hiddenFor (hpos ▸ h.label), runLine, State.advance_hiddenFor,
    State.tick_hiddenFor (s := s.advance) h.idle]

theorem State.Waits.step_read_idle (h : s.Waits p N) (hpos : s.driver.pos = p + 1) :
    step s = .next (s.setVar Var.scratch s.statusIdle).advance := by
  have hflight : s.inFlight = none := s.idle_iff.1 h.idle
  have hstep : step s = runLine _ s := h.step_hiddenFor (hpos ▸ h.read) s.res 0
  rw [hstep, runLine, readReg_status_idle h.idle, State.finishRead, State.tick_idle (by exact hflight)]

/-- The machine after a read of STATUS into `t` that found BUSY = 1. -/
def State.afterBusyRead (s : State) : State :=
  ({ s with anyCount := s.anyCount + 1 } : State).setVar Var.scratch (s.statusBusy (Config.busyWord s.anyCount))

theorem State.readReg_status_hiddenFor (s : State) (old : Results) (n : Nat) :
    (s.hiddenFor old (n + 1)).readReg 0x04 = (s.statusBusy (Config.busyWord s.anyCount),
      ({ s with anyCount := s.anyCount + 1 } : State).hiddenFor old (n + 1)) := readReg_status_busy rfl

theorem State.Waits.step_read_busy (h : s.Waits p N) (hpos : s.driver.pos = p + 1) (old : Results) (n : Nat) :
    step (s.hiddenFor old (n + 1)) = .next (s.afterBusyRead.advance.hiddenFor old n) := by
  rw [h.step_hiddenFor (hpos ▸ h.read), runLine, State.readReg_status_hiddenFor]
  exact congrArg Host.Outcome.next (State.tick_hiddenFor (s := s.afterBusyRead.advance) h.idle old (n + 1))

/-- BRBIT goes back to the label exactly where the read found BUSY = 1. -/
theorem State.Waits.step_branch (h : s.Waits p N) (hpos : s.driver.pos = p + 2) (old : Results) (n : Nat) :
    step (s.hiddenFor old n) =
      .next ((s.jump (if (s.varValue Var.scratch).getLsbD 0 = true then p else p + 3)).hiddenFor old (n - 1)) := by
  have htarget : findLabel (.wait N) (s.hiddenFor old n).driver.script = some p := by
    rw [State.hiddenFor_driver]
    exact h.target
  have hidle (q : Nat) : (s.jump q).busy = false := h.idle
  rw [h.step_hiddenFor (hpos ▸ h.branch), runLine_brbit htarget, State.jump_hiddenFor, State.varValue_hiddenFor,
    State.hiddenFor_driver, hpos, State.tick_hiddenFor (hidle _)]
  simp only [← getLsbD_eq_true_iff_toNat]

/-! ## The wait loop, turn by turn -/

/-- The machine after the wait loop: `t` holds STATUS, and the host is at the line after the branch. -/
def State.afterWait (s : State) (p : Nat) : State := (s.setVar Var.scratch s.statusIdle).jump (p + 3)

theorem State.varValue_setVar_advance (s : State) (v : Var) (x : Word) : (s.setVar v x).advance.varValue v = x := by
  simp [State.varValue, State.setVar]

theorem run_three {a b c d : State} (hab : step a = .next b) (hbc : step b = .next c) (hcd : step c = .next d)
    (k : Nat) : Host.Core.run core (k + 3) a = Host.Core.run core k d := by
  rw [run_succ_of_step hab, run_succ_of_step hbc, run_succ_of_step hcd]

/-- The last turn of the loop: the command is complete when STATUS is read. -/
theorem State.Waits.run_last_turn (h : s.Waits p N) (hpos : s.driver.pos = p) (old : Results) {n : Nat} (hn : n ≤ 1) :
    Host.Core.run core 3 (s.hiddenFor old n) = .next (s.afterWait p) := by
  have hlabel := h.step_label hpos old n
  rw [Nat.sub_eq_zero_of_le hn] at hlabel
  have hadvance : s.advance.Waits p N := { h with }
  have hread := hadvance.step_read_idle (congrArg (· + 1) hpos)
  have hset : (s.advance.setVar Var.scratch s.advance.statusIdle).advance.Waits p N := { h with }
  have hbranch := hset.step_branch (congrArg (· + 2) hpos) old 0
  have hbit : s.advance.statusIdle.getLsbD 0 = false := getLsbD_of_toNat (statusIdle_fields s.advance).1
  rw [State.varValue_setVar_advance, hbit, if_neg Bool.false_ne_true] at hbranch
  exact run_three hlabel hread hbranch 0

/-- Any other turn: STATUS reads BUSY = 1, and the host is back at the label with three lines of the duration gone. -/
theorem State.Waits.run_busy_turn (h : s.Waits p N) (hpos : s.driver.pos = p) (old : Results) (n k : Nat) :
    Host.Core.run core (k + 3) (s.hiddenFor old (n + 2)) =
      Host.Core.run core k ((s.afterBusyRead.jump p).hiddenFor old (n - 1)) := by
  have hadvance : s.advance.Waits p N := { h with }
  have hset : s.advance.afterBusyRead.advance.Waits p N := { h with }
  have hbranch := hset.step_branch (congrArg (· + 2) hpos) old n
  obtain ⟨hbit, -⟩ := statusBusy_fields s.advance (Config.busyWord s.advance.anyCount)
  rw [State.afterBusyRead, State.varValue_setVar_advance, if_pos hbit] at hbranch
  exact run_three (h.step_label hpos old (n + 2)) (hadvance.step_read_busy (congrArg (· + 1) hpos) old n) hbranch k

/-- What the busy turns leave in `t` is gone after the last one. -/
theorem State.afterWait_afterBusyRead (s : State) (p q : Nat) :
    (s.afterBusyRead.jump q).afterWait p = { s.afterWait p with anyCount := s.anyCount + 1 } := by
  have hne : s.statusBusy (Config.busyWord s.anyCount) ≠ 0 := by
    intro h
    obtain ⟨hbit, -⟩ := statusBusy_fields s (Config.busyWord s.anyCount)
    simp [h] at hbit
  have hvars := assignVar_assignVar s.driver.vars Var.scratch hne s.statusIdle
  simp only [State.afterWait, State.afterBusyRead, State.setVar, State.jump, State.statusIdle] at hvars ⊢
  rw [hvars]

/-- Whatever is left of the duration, the wait loop ends in the same state, but for the count of any values read. -/
theorem State.Waits.run (h : s.Waits p N) (hpos : s.driver.pos = p) (old : Results) (n : Nat) :
    ∃ k c, Host.Core.run core k (s.hiddenFor old n) = .next { s.afterWait p with anyCount := c } := by
  induction n using Nat.strong_induction_on generalizing s with
  | _ n ih =>
    match n with
    | 0 => exact ⟨3, s.anyCount, h.run_last_turn hpos old (Nat.zero_le 1)⟩
    | 1 => exact ⟨3, s.anyCount, h.run_last_turn hpos old (Nat.le_refl 1)⟩
    | n + 2 =>
      have hback : (s.afterBusyRead.jump p).Waits p N := { h with }
      obtain ⟨k, c, hk⟩ := ih (n - 1) (by omega) hback rfl
      refine ⟨k + 3, c, (h.run_busy_turn hpos old n k).trans ?_⟩
      rw [hk, State.afterWait_afterBusyRead]

end

/-- Settles O9: the CMD write leaves the command hidden for its duration (`State.submit_withTimes`), and the wait loop
ends in the same state however long that is (`State.Waits.run`), after one turn where it is 0. -/
theorem commandThenWaitSameUnderAnyDuration : Obligations.CommandThenWaitSameUnderAnyDuration := by
  intro s w d N later hs hidle hline hlabel hread hbranch htarget
  obtain ⟨done, hframe, hsubmit⟩ := s.advance.submit_withTimes w later
  have hstep (d : Nat) : step (s.withTimes (d :: later)) = .next (done.hiddenFor s.res d) :=
    (step_of_cmdWrite (s := s.withTimes (d :: later)) hs.params_legal hidle hline).trans (hsubmit d)
  have hrunning : s.driver.halted = false := Driver.halted_of_current hline
  have hwaits : done.Waits (s.driver.pos + 1) N := by
    rw [hframe]
    exact ⟨hs.params_legal, hidle, hrunning, hlabel, hread, hbranch, htarget⟩
  have hpos : done.driver.pos = s.driver.pos + 1 := by rw [hframe]; rfl
  have hcount : done.anyCount = s.anyCount := by rw [hframe]; rfl
  have hatomic := (run_succ_of_step (hstep 0) 3).trans (hwaits.run_last_turn hpos s.res (Nat.zero_le 1))
  obtain ⟨k, c, hk⟩ := hwaits.run hpos s.res d
  refine ⟨k + 1, _, (run_succ_of_step (hstep d) k).trans hk, hwaits.idle, rfl, hatomic.trans ?_⟩
  rw [← hcount]
  rfl

end Sys2Proof.Machine
end
